-- ==== Sys2Proof/Word.lean ====
section
/-! DEFINITION. The word, the byte and the register index of the SDSCKS core (spec/00_scope.md R6, R8, R9). -/

namespace Sys2Proof

/-- A register value, an address while it is computed, or an instruction word: 64 bits (R6, R9). -/
abbrev Word := BitVec 64

/-- The smallest addressable unit of memory (R6, R32). -/
abbrev Byte := BitVec 8

/-- The index of a general register, 0 to 31 (R16). -/
abbrev Reg := Fin 32

end Sys2Proof
end

