-- ==== Sys2Proof/Syntax.lean ====
section
/-! DEFINITION. The decoded instructions of the SDSCKS core: one constructor per row of spec/opcode_table.json, with
the typed operands of spec/30_encoding.md R75 (4): register indices 0 to 31 and 64-bit immediate, address and offset. -/

namespace Sys2Proof

/-- A decoded instruction (R67, R75). An `imm` is sext_64(IMM32) (R68), an `addr` is zext_64(ADDR48) (R69), an `off`
is sext_64(IMM32) in bytes (R70). -/
inductive Instr where
  /-- ADD (R88) -/
  | add (rd rs1 rs2 : Reg)
  /-- SUB (R89) -/
  | sub (rd rs1 rs2 : Reg)
  /-- MUL (R90) -/
  | mul (rd rs1 rs2 : Reg)
  /-- DIV (R91) -/
  | div (rd rs1 rs2 : Reg)
  /-- AND (R92) -/
  | and (rd rs1 rs2 : Reg)
  /-- OR (R93) -/
  | or (rd rs1 rs2 : Reg)
  /-- XOR (R94) -/
  | xor (rd rs1 rs2 : Reg)
  /-- SLL (R95) -/
  | sll (rd rs1 rs2 : Reg)
  /-- SRL (R96) -/
  | srl (rd rs1 rs2 : Reg)
  /-- SRA (R97) -/
  | sra (rd rs1 rs2 : Reg)
  /-- CMP (R98): `rd` is encoded and never written -/
  | cmp (rd rs1 rs2 : Reg)
  /-- ADDI (R100) -/
  | addi (rd rs1 : Reg) (imm : Word)
  /-- SUBI (R101) -/
  | subi (rd rs1 : Reg) (imm : Word)
  /-- ANDI (R102) -/
  | andi (rd rs1 : Reg) (imm : Word)
  /-- ORI (R103) -/
  | ori (rd rs1 : Reg) (imm : Word)
  /-- XORI (R104) -/
  | xori (rd rs1 : Reg) (imm : Word)
  /-- LI (R105) -/
  | li (rd : Reg) (imm : Word)
  /-- LOAD (R107) -/
  | load (rd : Reg) (addr : Word)
  /-- STORE (R108) -/
  | store (rs : Reg) (addr : Word)
  /-- JMP (R110) -/
  | jmp (addr : Word)
  /-- JR (R111) -/
  | jr (rs1 : Reg)
  /-- BEQ (R112) -/
  | beq (rs1 rs2 : Reg) (off : Word)
  /-- BNE (R113) -/
  | bne (rs1 rs2 : Reg) (off : Word)
  /-- HALT (R115) -/
  | halt
deriving DecidableEq, Repr

end Sys2Proof
end

