-- ==== Sys2Proof/WellFormed.lean ====
section
/-! DEFINITION. Which decoded instructions have an encoding: the operand ranges of spec/30_encoding.md R68 to R70 and
R76. (The range of a register index is in its type, Reg.) -/

namespace Sys2Proof

/-- An immediate or branch offset lies in -2^31 to 2^31-1 (R68, R70). -/
abbrev immInRange (v : Word) : Prop := -(2 ^ 31) ≤ v.toInt ∧ v.toInt < 2 ^ 31

/-- An address operand lies in 0 to 2^48-1 (R69). -/
abbrev addrInRange (a : Word) : Prop := a.toNat < 2 ^ 48

/-- Every operand is in the range its field admits (R76). -/
def Instr.wellFormed : Instr → Bool
  | .add _ _ _ => true
  | .sub _ _ _ => true
  | .mul _ _ _ => true
  | .div _ _ _ => true
  | .and _ _ _ => true
  | .or _ _ _ => true
  | .xor _ _ _ => true
  | .sll _ _ _ => true
  | .srl _ _ _ => true
  | .sra _ _ _ => true
  | .cmp _ _ _ => true
  | .addi _ _ imm => decide (immInRange imm)
  | .subi _ _ imm => decide (immInRange imm)
  | .andi _ _ imm => decide (immInRange imm)
  | .ori _ _ imm => decide (immInRange imm)
  | .xori _ _ imm => decide (immInRange imm)
  | .li _ imm => decide (immInRange imm)
  | .load _ addr => decide (addrInRange addr)
  | .store _ addr => decide (addrInRange addr)
  | .jmp addr => decide (addrInRange addr)
  | .jr _ => true
  | .beq _ _ off => decide (immInRange off)
  | .bne _ _ off => decide (immInRange off)
  | .halt => true

end Sys2Proof
end

