-- ==== Sys2Proof/Decode.lean ====
section
/-! DEFINITION. The instruction word: its fields, its decoding and its encoding (spec/30_encoding.md R57 to R76, R80),
and the byte order of words (spec/20_memory.md R44). -/

namespace Sys2Proof

/-! ### Byte order (R44) -/

/-- The word whose byte at the lowest address is `b0` (R44). -/
def wordOfBytes (b0 b1 b2 b3 b4 b5 b6 b7 : Byte) : Word :=
  b7 ++ b6 ++ b5 ++ b4 ++ b3 ++ b2 ++ b1 ++ b0

/-- Byte `i` of a word: bits 8i+7 to 8i (R42). -/
def byteOfWord (v : Word) (i : Nat) : Byte := v.extractLsb' (8 * i) 8

/-- The bytes of a word, the one at the lowest address first (R42, R44). -/
def bytesOfWord (v : Word) : List Byte :=
  [byteOfWord v 0, byteOfWord v 1, byteOfWord v 2, byteOfWord v 3,
   byteOfWord v 4, byteOfWord v 5, byteOfWord v 6, byteOfWord v 7]

/-! ### Fields (R11, R58) -/

/-- OP = w[63:56]. -/
def opField (w : Word) : BitVec 8 := w.extractLsb' 56 8

/-- RD = w[55:48]. -/
def rdField (w : Word) : BitVec 8 := w.extractLsb' 48 8

/-- RS1 = w[47:40]. -/
def rs1Field (w : Word) : BitVec 8 := w.extractLsb' 40 8

/-- RS2 = w[39:32]. -/
def rs2Field (w : Word) : BitVec 8 := w.extractLsb' 32 8

/-- IMM32 = w[31:0]. -/
def imm32Field (w : Word) : BitVec 32 := w.extractLsb' 0 32

/-- ADDR48 = w[47:0]. -/
def addr48Field (w : Word) : BitVec 48 := w.extractLsb' 0 48

/-- The immediate or offset operand, sext_64(IMM32) (R68, R70). -/
def immOperand (w : Word) : Word := (imm32Field w).signExtend 64

/-- The address operand, zext_64(ADDR48) (R69). -/
def addrOperand (w : Word) : Word := (addr48Field w).zeroExtend 64

/-! ### Must-be-zero masks, one per format (R59 to R66) -/

/-- Format R (R59). -/
def mbzR : Word := 0x00000000FFFFFFFF#64
/-- Format I (R60). -/
def mbzI : Word := 0x000000FF00000000#64
/-- Format L (R61). -/
def mbzL : Word := 0x0000FFFF00000000#64
/-- Format M (R62). -/
def mbzM : Word := 0x0000000000000000#64
/-- Format J (R63). -/
def mbzJ : Word := 0x00FF000000000000#64
/-- Format X (R64). -/
def mbzX : Word := 0x00FF00FFFFFFFFFF#64
/-- Format B (R65). -/
def mbzB : Word := 0x00FF000000000000#64
/-- Format S (R66). -/
def mbzS : Word := 0x00FFFFFFFFFFFFFF#64

/-! ### Decoding (R72 to R75) -/

/-- Why a fetched word does not decode. -/
inductive DecodeError where
  /-- The opcode is unassigned (R74). -/
  | unknownOpcode
  /-- A register field the format uses holds 32 or more (R72). -/
  | registerField
  /-- A must-be-zero bit is set (R73). -/
  | mustBeZero
deriving DecidableEq, Repr

/-- The register a field names, or the rejection of R72. -/
def regOfField (f : BitVec 8) : Except DecodeError Reg :=
  if h : f.toNat < 32 then .ok ⟨f.toNat, h⟩ else .error .registerField

/-- The check of R73: `i` when no bit of the mask is set in `w`. -/
def checkMbz (mask w : Word) (i : Instr) : Except DecodeError Instr :=
  if w &&& mask = 0#64 then .ok i else .error .mustBeZero

/-- Format R (R59): RD, RS1, RS2 checked in that order (R75), then the mask. -/
def decodeR (mk : Reg → Reg → Reg → Instr) (w : Word) : Except DecodeError Instr :=
  match regOfField (rdField w) with
  | .error e => .error e
  | .ok rd =>
    match regOfField (rs1Field w) with
    | .error e => .error e
    | .ok rs1 =>
      match regOfField (rs2Field w) with
      | .error e => .error e
      | .ok rs2 => checkMbz mbzR w (mk rd rs1 rs2)

/-- Format I (R60). -/
def decodeI (mk : Reg → Reg → Word → Instr) (w : Word) : Except DecodeError Instr :=
  match regOfField (rdField w) with
  | .error e => .error e
  | .ok rd =>
    match regOfField (rs1Field w) with
    | .error e => .error e
    | .ok rs1 => checkMbz mbzI w (mk rd rs1 (immOperand w))

/-- Format L (R61). -/
def decodeL (mk : Reg → Word → Instr) (w : Word) : Except DecodeError Instr :=
  match regOfField (rdField w) with
  | .error e => .error e
  | .ok rd => checkMbz mbzL w (mk rd (immOperand w))

/-- Format M (R62): the register is in RD for LOAD and STORE alike. -/
def decodeM (mk : Reg → Word → Instr) (w : Word) : Except DecodeError Instr :=
  match regOfField (rdField w) with
  | .error e => .error e
  | .ok r => checkMbz mbzM w (mk r (addrOperand w))

/-- Format J (R63). -/
def decodeJ (mk : Word → Instr) (w : Word) : Except DecodeError Instr :=
  checkMbz mbzJ w (mk (addrOperand w))

/-- Format X (R64): the register is in RS1. -/
def decodeX (mk : Reg → Instr) (w : Word) : Except DecodeError Instr :=
  match regOfField (rs1Field w) with
  | .error e => .error e
  | .ok rs1 => checkMbz mbzX w (mk rs1)

/-- Format B (R65). -/
def decodeB (mk : Reg → Reg → Word → Instr) (w : Word) : Except DecodeError Instr :=
  match regOfField (rs1Field w) with
  | .error e => .error e
  | .ok rs1 =>
    match regOfField (rs2Field w) with
    | .error e => .error e
    | .ok rs2 => checkMbz mbzB w (mk rs1 rs2 (immOperand w))

/-- Format S (R66). -/
def decodeS (i : Instr) (w : Word) : Except DecodeError Instr := checkMbz mbzS w i

/-- The decode procedure of R75 over the opcode map of R67; every other opcode is unassigned (R74). -/
def decode (w : Word) : Except DecodeError Instr :=
  match (opField w).toNat with
  | 0x01 => decodeR .add w
  | 0x02 => decodeR .sub w
  | 0x03 => decodeR .mul w
  | 0x04 => decodeR .div w
  | 0x05 => decodeR .and w
  | 0x06 => decodeR .or w
  | 0x07 => decodeR .xor w
  | 0x08 => decodeR .sll w
  | 0x09 => decodeR .srl w
  | 0x0A => decodeR .sra w
  | 0x0B => decodeR .cmp w
  | 0x10 => decodeI .addi w
  | 0x11 => decodeI .subi w
  | 0x12 => decodeI .andi w
  | 0x13 => decodeI .ori w
  | 0x14 => decodeI .xori w
  | 0x15 => decodeL .li w
  | 0x20 => decodeM .load w
  | 0x21 => decodeM .store w
  | 0x30 => decodeJ .jmp w
  | 0x31 => decodeX .jr w
  | 0x32 => decodeB .beq w
  | 0x33 => decodeB .bne w
  | 0xF0 => decodeS .halt w
  | _ => .error .unknownOpcode

/-- Why a run of bytes does not decode. -/
inductive BytesError where
  /-- Fewer than the 8 bytes of an instruction word (R57). -/
  | tooFewBytes
  /-- The first 8 bytes are a word that does not decode. -/
  | badWord (e : DecodeError)
deriving DecidableEq, Repr

/-- Decoding from bytes as memory holds them (R44, R57): the instruction and the bytes after it. -/
def decodeBytes : List Byte → Except BytesError (Instr × List Byte)
  | b0 :: b1 :: b2 :: b3 :: b4 :: b5 :: b6 :: b7 :: rest =>
    match decode (wordOfBytes b0 b1 b2 b3 b4 b5 b6 b7) with
    | .error e => .error (.badWord e)
    | .ok i => .ok (i, rest)
  | _ => .error .tooFewBytes

/-- The instruction read from the word the opcode table numbers `w`: its bytes are laid out in little-endian order and
given to the decoder. Every row of the table has 64 bits, and bits at or above `nbits` are 0. -/
def decodeTableWord (nbits w : Nat) : Option Instr :=
  match decodeBytes (bytesOfWord (BitVec.ofNat 64 (w % 2 ^ nbits))) with
  | .error _ => none
  | .ok (i, _) => some i

/-! ### Encoding (R58 to R67, R80) -/

/-- A register index in its 8-bit field (R58). -/
def fieldOfReg (r : Reg) : BitVec 8 := BitVec.ofNat 8 r.val

/-- An immediate or offset in its 32-bit field (R58). -/
def imm32OfOperand (v : Word) : BitVec 32 := v.extractLsb' 0 32

/-- An address in its 48-bit field (R58). -/
def addr48OfOperand (a : Word) : BitVec 48 := a.extractLsb' 0 48

/-- The word of format R: OP, RD, RS1, RS2, 0 (R59). -/
def encodeR (op : BitVec 8) (rd rs1 rs2 : Reg) : Word :=
  op ++ fieldOfReg rd ++ fieldOfReg rs1 ++ fieldOfReg rs2 ++ 0#32

/-- The word of format I: OP, RD, RS1, 0, IMM32 (R60). -/
def encodeI (op : BitVec 8) (rd rs1 : Reg) (imm : Word) : Word :=
  op ++ fieldOfReg rd ++ fieldOfReg rs1 ++ 0#8 ++ imm32OfOperand imm

/-- The word of format L: OP, RD, 0, IMM32 (R61). -/
def encodeL (op : BitVec 8) (rd : Reg) (imm : Word) : Word :=
  op ++ fieldOfReg rd ++ 0#16 ++ imm32OfOperand imm

/-- The word of format M: OP, RD, ADDR48 (R62). -/
def encodeM (op : BitVec 8) (r : Reg) (addr : Word) : Word :=
  op ++ fieldOfReg r ++ addr48OfOperand addr

/-- The word of format J: OP, 0, ADDR48 (R63). -/
def encodeJ (op : BitVec 8) (addr : Word) : Word :=
  op ++ 0#8 ++ addr48OfOperand addr

/-- The word of format X: OP, 0, RS1, 0 (R64). -/
def encodeX (op : BitVec 8) (rs1 : Reg) : Word :=
  op ++ 0#8 ++ fieldOfReg rs1 ++ 0#40

/-- The word of format B: OP, 0, RS1, RS2, IMM32 (R65). -/
def encodeB (op : BitVec 8) (rs1 rs2 : Reg) (off : Word) : Word :=
  op ++ 0#8 ++ fieldOfReg rs1 ++ fieldOfReg rs2 ++ imm32OfOperand off

/-- The word of format S: OP, 0 (R66). -/
def encodeS (op : BitVec 8) : Word := op ++ 0#56

/-- The word of a well-formed instruction (R67, R80). -/
def encode : Instr → Word
  | .add rd rs1 rs2 => encodeR 0x01#8 rd rs1 rs2
  | .sub rd rs1 rs2 => encodeR 0x02#8 rd rs1 rs2
  | .mul rd rs1 rs2 => encodeR 0x03#8 rd rs1 rs2
  | .div rd rs1 rs2 => encodeR 0x04#8 rd rs1 rs2
  | .and rd rs1 rs2 => encodeR 0x05#8 rd rs1 rs2
  | .or rd rs1 rs2 => encodeR 0x06#8 rd rs1 rs2
  | .xor rd rs1 rs2 => encodeR 0x07#8 rd rs1 rs2
  | .sll rd rs1 rs2 => encodeR 0x08#8 rd rs1 rs2
  | .srl rd rs1 rs2 => encodeR 0x09#8 rd rs1 rs2
  | .sra rd rs1 rs2 => encodeR 0x0A#8 rd rs1 rs2
  | .cmp rd rs1 rs2 => encodeR 0x0B#8 rd rs1 rs2
  | .addi rd rs1 imm => encodeI 0x10#8 rd rs1 imm
  | .subi rd rs1 imm => encodeI 0x11#8 rd rs1 imm
  | .andi rd rs1 imm => encodeI 0x12#8 rd rs1 imm
  | .ori rd rs1 imm => encodeI 0x13#8 rd rs1 imm
  | .xori rd rs1 imm => encodeI 0x14#8 rd rs1 imm
  | .li rd imm => encodeL 0x15#8 rd imm
  | .load rd addr => encodeM 0x20#8 rd addr
  | .store rs addr => encodeM 0x21#8 rs addr
  | .jmp addr => encodeJ 0x30#8 addr
  | .jr rs1 => encodeX 0x31#8 rs1
  | .beq rs1 rs2 off => encodeB 0x32#8 rs1 rs2 off
  | .bne rs1 rs2 off => encodeB 0x33#8 rs1 rs2 off
  | .halt => encodeS 0xF0#8

end Sys2Proof
end

