-- ==== Sys2Proof/Config.lean ====
section
/-! DEFINITION. What an implementation fixes: the parameters of spec/00_scope.md R7 and the open values of
spec/70_reset_and_hazards.md R132. -/

namespace Sys2Proof

/-- The construction parameters of R7. State carries one, so that a claim can range over all of them;
nothing changes it (R32: "Its capacity is fixed at construction"). Log entry 4. -/
structure Config where
  /-- `MEM_BYTES`: the capacity of memory in bytes (R7, R45). -/
  memBytes : Nat
  /-- `IN_ADDR`: the address of the input device (R7, R47). -/
  inAddr : Word
  /-- `OUT_ADDR`: the address of the output device (R7, R48). -/
  outAddr : Word
deriving DecidableEq, Repr

/-- The defaults of R7. -/
def Config.default : Config :=
  { memBytes := 0x04000000
    inAddr := 0x0000FFFFFFFFFFF0#64
    outAddr := 0x0000FFFFFFFFFFF8#64 }

/-- The constraints R7 puts on the parameters. -/
abbrev Config.Legal (c : Config) : Prop :=
  c.memBytes % 8 = 0 ∧ 8 ≤ c.memBytes ∧
  c.memBytes ≤ c.inAddr.toNat ∧ c.memBytes ≤ c.outAddr.toNat ∧
  c.inAddr ≠ c.outAddr ∧
  c.inAddr.toNat % 8 = 0 ∧ c.outAddr.toNat % 8 = 0 ∧
  c.inAddr.toNat < 2 ^ 48 ∧ c.outAddr.toNat < 2 ^ 48

/-- `IMAGE_MAGIC` (R132): OPEN in the spec, so it has no value here. Log entry 9. -/
opaque Config.imageMagic : BitVec 32

/-- `IMAGE_VERSION` (R132): OPEN in the spec, so it has no value here. Log entry 9. -/
opaque Config.imageVersion : BitVec 16

end Sys2Proof
end

