-- ==== Sys2Proof/Machine/State.lean ====
section
/-! DEFINITION. The architectural state of the SDSCKS core (spec/10_state.md), its reset value (spec/70_reset_and_hazards.md
R129), the spec's own faults (spec/60_exceptions.md R117) and the outcomes by which the model stops. -/

namespace Sys2Proof.Machine

open Sys2Proof

/-- The memory store `M` (R32) as sparse data: (address, byte) pairs with addresses strictly rising and no entry equal
to 0, the value of a byte nothing was placed in (R131). `Memory.wf` (Machine/Ops.lean) is that form. -/
abbrev Memory := List Host.Cell

/-- The three kinds of word access (R40 to R42). -/
inductive AccessKind where
  /-- Instruction fetch (R40). -/
  | fetch
  /-- The data read of LOAD (R41). -/
  | load
  /-- The data write of STORE (R42). -/
  | store
deriving DecidableEq, Repr

/-- What makes a word access fail (R45, R46). -/
inductive AccessError where
  /-- `a + 8 > MEM_BYTES` (R45). -/
  | outOfRange
  /-- `a mod 8 != 0` (R46). -/
  | misaligned
deriving DecidableEq, Repr

/-- The faults of the core (R117), each a NEXT state of the model (R119), with what its report needs. -/
inductive CoreFault where
  /-- DIV with a zero divisor (R91). -/
  | divisionByZero
  /-- A failed fetch, load or store at `addr` (R40 to R42). -/
  | memoryFault (kind : AccessKind) (why : AccessError) (addr : Word)
  /-- A fetched word with an unassigned opcode (R74). -/
  | unknownOpcode
  /-- A fetched word with a register field of 32 or more (R72). -/
  | invalidRegister
  /-- A fetched word with a non-zero must-be-zero bit (R73). -/
  | invalidZeroField
deriving DecidableEq, Repr

/-- Every piece of state the spec gives the machine (R16 to R34), and the construction parameters of R7. -/
structure State where
  /-- MEM_BYTES, IN_ADDR, OUT_ADDR (R7): fixed when the machine is built. -/
  config : Config
  /-- `x[0]` to `x[31]` (R16). -/
  regs : Vector Word 32
  /-- The program counter; between steps it is the fetch PC of the next step (R19). -/
  pc : Word
  /-- Zero flag (R22, R23). -/
  flagZ : Bool
  /-- Negative flag (R22, R23). -/
  flagN : Bool
  /-- Carry flag (R22, R24). -/
  flagC : Bool
  /-- Overflow flag (R22, R24). -/
  flagV : Bool
  /-- The run state: true is Running, false is Halted (R25). -/
  running : Bool
  /-- HALT_CAUSE (R26). -/
  haltCause : BitVec 3
  /-- FAULT_SUB (R27). -/
  faultSub : BitVec 3
  /-- FAULT_PC (R28). -/
  faultPc : Word
  /-- FAULT_WORD (R29). -/
  faultWord : Word
  /-- FAULT_ADDR (R30). -/
  faultAddr : Word
  /-- The memory store (R32). -/
  mem : Memory
  /-- IN: the values the host has supplied and no LOAD has taken, oldest first (R34, R47). -/
  input : List Word
  /-- OUT: the values written to OUT_ADDR since reset, oldest first (R34, R48). -/
  output : List Word
deriving DecidableEq, Repr

/-- Why the model itself stops without a next state. -/
inductive Fault where
  /-- Raised by `step` in a Halted core, which has no step (R38). Safe: the model stops where the core does nothing. -/
  | halted
deriving DecidableEq, Repr

/-- Why the model gives an instruction no meaning. -/
inductive Refusal where
  /-- Raised by an arm of `exec` that has no meaning yet; no arm is left so. Safe: the model stops. -/
  | notModelled (mnemonic : String)
deriving DecidableEq, Repr

/-- The machine right after reset (R129), with the parameters at their defaults (R7, log entry 4), RESET_PC 0
(R128, R130, log entry 5), memory in which no image was placed (R131, log entry 6) and no input supplied yet
(log entry 7). -/
def State.reset : State :=
  { config := Config.default
    regs := Vector.replicate 32 0#64
    pc := 0#64
    flagZ := false
    flagN := false
    flagC := false
    flagV := false
    running := true
    haltCause := 0#3
    faultSub := 0#3
    faultPc := 0#64
    faultWord := 0#64
    faultAddr := 0#64
    mem := []
    input := []
    output := [] }

end Sys2Proof.Machine
end

