-- ==== Sys2Proof/Machine/Ops.lean ====
section
/-! DEFINITION. The named operations over registers, memory, the devices and the fault status registers
(spec/10_state.md, spec/20_memory.md, spec/60_exceptions.md). -/

namespace Sys2Proof.Machine

open Sys2Proof

/-- What one step answers. -/
abbrev StepResult := Host.Outcome State Fault Refusal

/-! ### Memory as sparse data (R32, R131) -/

/-- The byte at address `a`; an unlisted address reads as 0 (R131). -/
def Memory.read : Memory → Nat → Byte
  | [], _ => 0#8
  | (k, v) :: m, a => if a = k then v else Memory.read m a

/-- Memory with byte `a` set to `b`, in canonical form when it was: writing 0 removes the entry. -/
def Memory.write : Memory → Nat → Byte → Memory
  | [], a, b => if b = 0#8 then [] else [(a, b)]
  | (k, v) :: m, a, b =>
    if a < k then
      if b = 0#8 then (k, v) :: m else (a, b) :: (k, v) :: m
    else if a = k then
      if b = 0#8 then m else (a, b) :: m
    else
      (k, v) :: Memory.write m a b

/-- Addresses are at least `lo`, strictly rising, and no byte listed is 0. -/
def Memory.wfFrom : Nat → Memory → Bool
  | _, [] => true
  | lo, (a, b) :: m => decide (lo ≤ a) && decide (b ≠ 0#8) && Memory.wfFrom (a + 1) m

/-- The canonical form: equal memories are equal lists. -/
def Memory.wf (m : Memory) : Bool := Memory.wfFrom 0 m

/-- Every listed address is below `n`. -/
def Memory.below (n : Nat) (m : Memory) : Bool := m.all fun c => decide (c.1 < n)

/-- Memory with the bytes of the list placed at `a`, `a + 1`, and so on (R42, R131). -/
def Memory.writeBytes : Memory → Nat → List Byte → Memory
  | m, _, [] => m
  | m, a, b :: bs => Memory.writeBytes (Memory.write m a b) (a + 1) bs

/-- Memory after the loader's byte writes, the first of the list first (R39). -/
def Memory.writeCells : Memory → List Host.Cell → Memory
  | m, [] => m
  | m, (a, b) :: cs => Memory.writeCells (m.write a b) cs

/-- The little-endian word at `a`: M[a+7], …, M[a] from the most significant byte down (R40, R41, R44). -/
def Memory.readWord (m : Memory) (a : Nat) : Word :=
  wordOfBytes (m.read a) (m.read (a + 1)) (m.read (a + 2)) (m.read (a + 3))
    (m.read (a + 4)) (m.read (a + 5)) (m.read (a + 6)) (m.read (a + 7))

/-- Memory with `M[a+i] <- v[8i+7:8i]` for i = 0 to 7 (R42, R44). -/
def Memory.writeWord (m : Memory) (a : Nat) (v : Word) : Memory :=
  m.writeBytes a (bytesOfWord v)

/-! ### Registers and the program counter (R10, R16 to R20) -/

/-- `x[r]`. -/
def State.reg (s : State) (r : Reg) : Word := s.regs[r]

/-- `x[r] <- v`; no register is hardwired (R17). -/
def State.setReg (s : State) (r : Reg) (v : Word) : State := { s with regs := s.regs.set r v }

/-- `pc_next`, the already-advanced program counter: fetch PC + 8 modulo 2^64 (R14, R20). -/
def State.nextPc (s : State) : Word := s.pc + 8#64

/-- `pc <- target` (R109). -/
def State.setPc (s : State) (target : Word) : State := { s with pc := target }

/-- The advance of R20, for an instruction that does not transfer control. -/
def State.advance (s : State) : State := s.setPc s.nextPc

/-- `Z <- z` and `N <- n`; C and V stay (R23, R24). -/
def State.setZN (s : State) (z n : Bool) : State := { s with flagZ := z, flagN := n }

/-- The memory store becomes `m`. -/
def State.setMem (s : State) (m : Memory) : State := { s with mem := m }

/-- The input stream becomes `vs` (R34). -/
def State.setInput (s : State) (vs : List Word) : State := { s with input := vs }

/-- The core appends one value to the output stream (R34, R48). -/
def State.emit (s : State) (v : Word) : State := { s with output := s.output ++ [v] }

/-- The byte of memory at `a` (R32). -/
def State.readByte (s : State) (a : Nat) : Byte := s.mem.read a

/-- An instruction that writes `rd` retires: the result is written and `pc` keeps the advanced value (R85, R99). -/
def State.retire (s : State) (rd : Reg) (v : Word) : State := (s.setReg rd v).advance

/-! ### Fault codes (R26, R27, R117) -/

/-- The value written to HALT_CAUSE (R117). -/
def CoreFault.cause : CoreFault → BitVec 3
  | .divisionByZero => 2#3
  | .memoryFault _ _ _ => 3#3
  | .unknownOpcode => 4#3
  | .invalidRegister => 5#3
  | .invalidZeroField => 5#3

/-- The sub-cause of a memory fault (R27). -/
def memorySubCause : AccessKind → AccessError → BitVec 3
  | .fetch, .outOfRange => 1#3
  | .fetch, .misaligned => 2#3
  | .load, .outOfRange => 3#3
  | .load, .misaligned => 4#3
  | .store, .outOfRange => 5#3
  | .store, .misaligned => 6#3

/-- The value written to FAULT_SUB (R27, R117). -/
def CoreFault.sub : CoreFault → BitVec 3
  | .divisionByZero => 0#3
  | .memoryFault kind why _ => memorySubCause kind why
  | .unknownOpcode => 0#3
  | .invalidRegister => 1#3
  | .invalidZeroField => 2#3

/-- The value written to FAULT_ADDR: the failing address of a memory fault, else 0 (R30, R117). -/
def CoreFault.addr : CoreFault → Word
  | .divisionByZero => 0#64
  | .memoryFault _ _ a => a
  | .unknownOpcode => 0#64
  | .invalidRegister => 0#64
  | .invalidZeroField => 0#64

/-- The fault a decoding error raises (R72 to R74). -/
def faultOfDecodeError : DecodeError → CoreFault
  | .unknownOpcode => .unknownOpcode
  | .registerField => .invalidRegister
  | .mustBeZero => .invalidZeroField

/-! ### Halting: HALT and the taking of a fault (R115, R119) -/

/-- The one way into Halted: the five status registers are written with the fetch PC of the step, `pc` gets `pc'`,
and nothing else changes (R26 to R30, R115, R119). -/
def State.haltWith (s : State) (cause sub : BitVec 3) (word addr pc' : Word) : State :=
  { s with
    running := false
    haltCause := cause
    faultSub := sub
    faultPc := s.pc
    faultWord := word
    faultAddr := addr
    pc := pc' }

/-- Taking a fault (R119) in the step whose fetch PC is `s.pc`. `fetched` is the step's instruction word, `none` when
the fetch failed: then FAULT_WORD gets 0 and `pc` has not advanced; else `pc` has advanced. There is no handler, no
vector and no return (R119, R122). -/
def State.takeFault (s : State) (f : CoreFault) (fetched : Option Word) : State :=
  match fetched with
  | none => s.haltWith f.cause f.sub 0#64 f.addr s.pc
  | some w => s.haltWith f.cause f.sub w f.addr s.nextPc

/-- The word of the instruction that is executing: the one at the fetch PC, since nothing writes memory between the
fetch and the effect of one step (R36, R40; log entry 8). -/
def State.instrWord (s : State) : Word := s.mem.readWord s.pc.toNat

/-- A fault raised at execute (R119, R121 (6)). -/
def State.raise (s : State) (f : CoreFault) : State := s.takeFault f (some s.instrWord)

/-- `halt()` of R115. -/
def State.halt (s : State) : State := s.haltWith 1#3 0#3 s.instrWord 0#64 s.nextPc

/-! ### Word accesses (R40 to R42, R45, R46) -/

/-- The checks of a word access at `a`: alignment first, then the range without wrap-around (R45, R46). -/
def State.accessError (s : State) (a : Word) : Option AccessError :=
  if a.toNat % 8 ≠ 0 then some .misaligned
  else if s.config.memBytes < a.toNat + 8 then some .outOfRange
  else none

/-- `Fetch(a)` (R40): always the memory store, never a device. -/
def State.fetch (s : State) (a : Word) : Except CoreFault Word :=
  match s.accessError a with
  | some e => .error (.memoryFault .fetch e a)
  | none => .ok (s.mem.readWord a.toNat)

/-- What `MemRead` answers. -/
inductive ReadResult where
  /-- The word, and the state after the read (the input device consumes a value, memory nothing: R52). -/
  | value (v : Word) (s : State)
  /-- The input device has no value yet (R47). -/
  | waiting
  /-- The access faults (R41). -/
  | fault (f : CoreFault)

/-- `MemRead(a, 8)` (R41, R47): the input device at IN_ADDR, else memory. -/
def State.memRead (s : State) (a : Word) : ReadResult :=
  if a = s.config.inAddr then
    match s.input with
    | [] => .waiting
    | v :: vs => .value v (s.setInput vs)
  else
    match s.accessError a with
    | some e => .fault (.memoryFault .load e a)
    | none => .value (s.mem.readWord a.toNat) s

/-- `MemWrite(a, 8, v)` (R42, R48): the output device at OUT_ADDR, else memory. -/
def State.memWrite (s : State) (a v : Word) : Except CoreFault State :=
  if a = s.config.outAddr then .ok (s.emit v)
  else
    match s.accessError a with
    | some e => .error (.memoryFault .store e a)
    | none => .ok (s.setMem (s.mem.writeWord a.toNat v))

/-! ### The front of a step (R37) -/

/-- Fetch and decode (R37): the instruction at the fetch PC, or the fault and the word fetched with it, if any. -/
def State.fetchDecode (s : State) : Except (CoreFault × Option Word) Instr :=
  match s.fetch s.pc with
  | .error f => .error (f, none)
  | .ok w =>
    match decode w with
    | .error e => .error (faultOfDecodeError e, some w)
    | .ok i => .ok i

end Sys2Proof.Machine
end

