-- ==== Sys2Proof/Machine/Operands.lean ====
section
/-! DEFINITION. The operand forms of the SDSCKS core and the function each mnemonic names
(spec/41_register_register.md, spec/42_register_immediate.md, spec/43_load_store.md R106, spec/44_control_flow.md R109).
Register, immediate and address operands come out of the decoder whole (spec/30_encoding.md R75). -/

namespace Sys2Proof.Machine

open Sys2Proof

/-- The amount of a shift: the low 6 bits of the register (R95). -/
def shiftAmount (b : Word) : Nat := (b.extractLsb' 0 6).toNat

/-- ADD, ADDI: the sum modulo 2^64 (R88, R100). -/
def aluAdd (a b : Word) : Word := a + b

/-- SUB, SUBI: the difference modulo 2^64 (R89, R101). -/
def aluSub (a b : Word) : Word := a - b

/-- MUL: the low 64 bits of the product (R90). -/
def aluMul (a b : Word) : Word := a * b

/-- DIV by a divisor that is not 0: signed, rounded toward zero; the one overflowing quotient is -2^63 (R91). -/
def aluDiv (a b : Word) : Word :=
  if a.toInt = -(2 ^ 63) ∧ b.toInt = -1 then 0x8000000000000000#64
  else BitVec.ofInt 64 (a.toInt.tdiv b.toInt)

/-- SLL: zeros enter from the right (R95). -/
def aluSll (a b : Word) : Word := a <<< shiftAmount b

/-- SRL: zeros enter from the left (R96). -/
def aluSrl (a b : Word) : Word := a >>> shiftAmount b

/-- SRA: copies of bit 63 enter from the left (R97). -/
def aluSra (a b : Word) : Word := a.sshiftRight (shiftAmount b)

/-- The effective address of LOAD and STORE: the one absolute mode (R106). -/
def effectiveAddress (addr : Word) : Word := addr

/-- The target of a taken branch: `pc_next + off` modulo 2^64 (R70, R109). -/
def State.branchTarget (s : State) (off : Word) : Word := s.nextPc + off

end Sys2Proof.Machine
end

