-- ==== Sys2Proof/Machine/Control.lean ====
section
/-! DEFINITION. The control-flow instructions (spec/44_control_flow.md R109 to R114). A target is not checked when it is
written; a bad one faults at the next fetch (R109). -/

namespace Sys2Proof.Machine

open Sys2Proof

/-- JMP (R110): to an absolute address. -/
def execJmp (addr : Word) (s : State) : StepResult :=
  .next (s.setPc addr)

/-- JR (R111): to the address in a register. -/
def execJr (rs1 : Reg) (s : State) : StepResult :=
  .next (s.setPc (s.reg rs1))

/-- BEQ (R112): taken when the registers are equal; Z is not read. -/
def execBeq (rs1 rs2 : Reg) (off : Word) (s : State) : StepResult :=
  .next (if s.reg rs1 = s.reg rs2 then s.setPc (s.branchTarget off) else s.advance)

/-- BNE (R113): taken when the registers differ. -/
def execBne (rs1 rs2 : Reg) (off : Word) (s : State) : StepResult :=
  .next (if s.reg rs1 ≠ s.reg rs2 then s.setPc (s.branchTarget off) else s.advance)

end Sys2Proof.Machine
end

