-- ==== Sys2Proof/Machine/LoadStore.lean ====
section
/-! DEFINITION. LOAD and STORE (spec/43_load_store.md R106 to R108). -/

namespace Sys2Proof.Machine

open Sys2Proof

/-- LOAD (R107): one 64-bit word from memory, or the next input value at IN_ADDR. While the input device has no value
the LOAD waits and nothing changes (R33, R47): the step answers the state it was given (log entry 2). -/
def execLoad (rd : Reg) (addr : Word) (s : State) : StepResult :=
  match s.memRead (effectiveAddress addr) with
  | .value v s' => .next (s'.retire rd v)
  | .waiting => .next s
  | .fault f => .next (s.raise f)

/-- STORE (R108): one 64-bit word to memory, or one output event at OUT_ADDR. -/
def execStore (rs : Reg) (addr : Word) (s : State) : StepResult :=
  match s.memWrite (effectiveAddress addr) (s.reg rs) with
  | .ok s' => .next s'.advance
  | .error f => .next (s.raise f)

end Sys2Proof.Machine
end

