-- ==== Sys2Proof/Machine/RegImm.lean ====
section
/-! DEFINITION. The register-immediate instructions (spec/42_register_immediate.md R99 to R105); `imm` is sext_64(IMM32)
(spec/30_encoding.md R68). -/

namespace Sys2Proof.Machine

open Sys2Proof

/-- ADDI (R100): the sum modulo 2^64. -/
def execAddi (rd rs1 : Reg) (imm : Word) (s : State) : StepResult :=
  .next (s.retire rd (aluAdd (s.reg rs1) imm))

/-- SUBI (R101): the difference modulo 2^64. -/
def execSubi (rd rs1 : Reg) (imm : Word) (s : State) : StepResult :=
  .next (s.retire rd (aluSub (s.reg rs1) imm))

/-- ANDI (R102): bitwise and. -/
def execAndi (rd rs1 : Reg) (imm : Word) (s : State) : StepResult :=
  .next (s.retire rd (s.reg rs1 &&& imm))

/-- ORI (R103): bitwise inclusive or. -/
def execOri (rd rs1 : Reg) (imm : Word) (s : State) : StepResult :=
  .next (s.retire rd (s.reg rs1 ||| imm))

/-- XORI (R104): bitwise exclusive or. -/
def execXori (rd rs1 : Reg) (imm : Word) (s : State) : StepResult :=
  .next (s.retire rd (s.reg rs1 ^^^ imm))

/-- LI (R105): the immediate itself; no register is read. -/
def execLi (rd : Reg) (imm : Word) (s : State) : StepResult :=
  .next (s.retire rd imm)

end Sys2Proof.Machine
end

