-- ==== Sys2Proof/Machine/Flags.lean ====
section
/-! DEFINITION. The two flag computations of the SDSCKS core, both of CMP (spec/41_register_register.md R98). C and V
are written by no instruction (spec/10_state.md R24). -/

namespace Sys2Proof.Machine

open Sys2Proof

/-- Z: the operands are equal (R23, R98). -/
def cmpZ (a b : Word) : Bool := decide (a = b)

/-- N: the first operand is the smaller one, read as signed integers; not the sign of a wrapped difference (R98). -/
def cmpN (a b : Word) : Bool := decide (a.toInt < b.toInt)

end Sys2Proof.Machine
end

