-- ==== Sys2Proof/Machine/RegReg.lean ====
section
/-! DEFINITION. The register-register instructions (spec/41_register_register.md R85 to R98). -/

namespace Sys2Proof.Machine

open Sys2Proof

/-- ADD (R88): the sum modulo 2^64, no flag. -/
def execAdd (rd rs1 rs2 : Reg) (s : State) : StepResult :=
  .next (s.retire rd (aluAdd (s.reg rs1) (s.reg rs2)))

/-- SUB (R89): the difference modulo 2^64, no flag. -/
def execSub (rd rs1 rs2 : Reg) (s : State) : StepResult :=
  .next (s.retire rd (aluSub (s.reg rs1) (s.reg rs2)))

/-- MUL (R90): the low 64 bits of the product, no flag. -/
def execMul (rd rs1 rs2 : Reg) (s : State) : StepResult :=
  .next (s.retire rd (aluMul (s.reg rs1) (s.reg rs2)))

/-- DIV (R91): the signed quotient rounded toward zero; a zero divisor raises DivisionByZero and `rd` is not written. -/
def execDiv (rd rs1 rs2 : Reg) (s : State) : StepResult :=
  if s.reg rs2 = 0#64 then .next (s.raise .divisionByZero)
  else .next (s.retire rd (aluDiv (s.reg rs1) (s.reg rs2)))

/-- AND (R92): bitwise and. -/
def execAnd (rd rs1 rs2 : Reg) (s : State) : StepResult :=
  .next (s.retire rd (s.reg rs1 &&& s.reg rs2))

/-- OR (R93): bitwise inclusive or. -/
def execOr (rd rs1 rs2 : Reg) (s : State) : StepResult :=
  .next (s.retire rd (s.reg rs1 ||| s.reg rs2))

/-- XOR (R94): bitwise exclusive or. -/
def execXor (rd rs1 rs2 : Reg) (s : State) : StepResult :=
  .next (s.retire rd (s.reg rs1 ^^^ s.reg rs2))

/-- SLL (R95): shift left by x[rs2][5:0]. -/
def execSll (rd rs1 rs2 : Reg) (s : State) : StepResult :=
  .next (s.retire rd (aluSll (s.reg rs1) (s.reg rs2)))

/-- SRL (R96): logical shift right by x[rs2][5:0]. -/
def execSrl (rd rs1 rs2 : Reg) (s : State) : StepResult :=
  .next (s.retire rd (aluSrl (s.reg rs1) (s.reg rs2)))

/-- SRA (R97): arithmetic shift right by x[rs2][5:0]. -/
def execSra (rd rs1 rs2 : Reg) (s : State) : StepResult :=
  .next (s.retire rd (aluSra (s.reg rs1) (s.reg rs2)))

/-- CMP (R98): Z and N from the operands; no register is written, `rd` is encoded only. -/
def execCmp (_rd rs1 rs2 : Reg) (s : State) : StepResult :=
  .next (s.setZN (cmpZ (s.reg rs1) (s.reg rs2)) (cmpN (s.reg rs1) (s.reg rs2))).advance

end Sys2Proof.Machine
end

