-- ==== Sys2Proof/Machine/System.lean ====
section
/-! DEFINITION. HALT, the only system instruction (spec/45_system.md R115, R116). -/

namespace Sys2Proof.Machine

open Sys2Proof

/-- HALT (R115): the core goes to Halted with HALT_CAUSE 1; registers, flags and memory stay, `pc` is fetch PC + 8. -/
def execHalt (s : State) : StepResult :=
  .next s.halt

end Sys2Proof.Machine
end

