-- ==== Sys2Proof/Machine/Step.lean ====
section
/-! DEFINITION. One step of the core (spec/10_state.md R36 to R38). -/

namespace Sys2Proof.Machine

open Sys2Proof

/-- One step (R37): in Halted there is none (R38, log entry 3); in Running the instruction at the fetch PC is fetched,
decoded and executed, or the fault of fetching or decoding it is taken (R119). -/
def step (s : State) : Host.Outcome State Fault Refusal :=
  match s.running with
  | false => .fault .halted
  | true =>
    match s.fetchDecode with
    | .error (f, w) => .next (s.takeFault f w)
    | .ok i => exec i s

/-- The state in which the word that spec/opcode_table.json numbers `w` stands where the next step fetches: its 8 bytes
are stored at `pc`, and nothing else changes. It stands for the host's load of a program (R131, log entry 5). -/
def State.withFetchWord (s : State) (nbits w : Nat) : State :=
  s.setMem (s.mem.writeWord s.pc.toNat (BitVec.ofNat 64 (w % 2 ^ nbits)))

end Sys2Proof.Machine
end

