-- ==== Sys2Proof/Machine/Assembler.lean ====
section
/-! DEFINITION. The text of a source unit and the words it must assemble to (spec/30_encoding.md R77 to R83), and the
linker's patch of a word (R84). The assembler stands outside the core (spec/00_scope.md R5 (c)); nothing in the step
uses this file. Log entry 15. -/

namespace Sys2Proof.Machine

open Sys2Proof

/-! ### Characters and tokens (R77 to R79) -/

/-- The errors of R82. -/
inductive AsmErrorKind where
  | lexicalError
  | syntaxError
  | duplicateLabel
  | unknownMnemonic
  | invalidOperand
deriving DecidableEq, Repr

/-- An error with its source line (R82); that the first line is 1 is the model's choice (log entry 15). -/
structure AsmError where
  line : Nat
  kind : AsmErrorKind
deriving DecidableEq, Repr

/-- A decimal digit. -/
def isDigitChar (c : Char) : Bool := decide (48 ≤ c.toNat) && decide (c.toNat ≤ 57)

/-- A character that may begin an identifier: A to Z, a to z, _ (R77). -/
def isIdentStart (c : Char) : Bool :=
  (decide (65 ≤ c.toNat) && decide (c.toNat ≤ 90)) || (decide (97 ≤ c.toNat) && decide (c.toNat ≤ 122)) || c == '_'

/-- A character that may go on in an identifier (R77). -/
def isIdentChar (c : Char) : Bool := isIdentStart c || isDigitChar c

/-- A comma or white space (R78). Which characters are white space is the model's choice: space, tab and carriage return
(log entry 15). -/
def isSeparator (c : Char) : Bool := c == ',' || c == ' ' || c == '\t' || c == '\r'

/-- A character that some token can hold; any other is a LexicalError (R82). -/
def isTokenChar (c : Char) : Bool := isIdentChar c || c == '-' || c == ':'

/-- An identifier (R77). -/
def isIdentifier : List Char → Bool
  | [] => false
  | c :: cs => isIdentStart c && cs.all isIdentChar

/-- The line without its comment (R77). -/
def stripComment (cs : List Char) : List Char := cs.takeWhile fun c => c != ';'

/-- The tokens between separators (R78); `acc` is the token being read. A comma that separates no two operands (a leading,
repeated or trailing one, one between the mnemonic and its first operand, or one alone on a line, which is then blank) is
skipped like white space. R78 is silent on it: DESIGN CHOICE, log entry 15. -/
def tokensFrom (acc : List Char) : List Char → List (List Char)
  | [] => if acc.isEmpty then [] else [acc]
  | c :: cs =>
    if isSeparator c then
      if acc.isEmpty then tokensFrom [] cs else acc :: tokensFrom [] cs
    else tokensFrom (acc ++ [c]) cs

/-- What one line declares and does (R77), with the errors its text shows already (R82). A blank line has none of the
three; a line with a label and an instruction is an error, and both are kept so that their errors are found too. -/
structure SourceLine where
  /-- Lexical and syntax errors, in that order. -/
  errors : List AsmErrorKind
  /-- The label the line declares. -/
  label : Option (List Char)
  /-- The mnemonic and the operand tokens. -/
  instruction : Option (List Char × List (List Char))
deriving DecidableEq, Repr

/-- The mnemonic and the operands, if there is a token. -/
def readBody : List (List Char) → Option (List Char × List (List Char))
  | [] => none
  | m :: ops => some (m, ops)

/-- The tokens of a line: a label is a first token that ends in `:` (R77). A bad identifier before the colon is a
SyntaxError and declares nothing; any token after the label is a SyntaxError and read on as an instruction. A colon inside
the first token, with no separator after it (`loop:ADD R1,R2,R3`), declares no label: the token is read as one mnemonic,
which is an UnknownMnemonic. R77 gives none of these an error kind: DESIGN CHOICE, log entry 15. -/
def readTokens : List (List Char) → SourceLine
  | [] => { errors := [], label := none, instruction := none }
  | t :: rest =>
    if t.getLast? = some ':' then
      { errors := (if isIdentifier t.dropLast then [] else [.syntaxError]) ++
          (if rest.isEmpty then [] else [.syntaxError])
        label := if isIdentifier t.dropLast then some t.dropLast else none
        instruction := readBody rest }
    else { errors := [], label := none, instruction := some (t, rest) }

/-- A character that a line may hold outside a comment; any other is unrecognized (R82). -/
def isSourceChar (c : Char) : Bool := isTokenChar c || isSeparator c

/-- One line (R77, R82): a LexicalError for every unrecognized character, and the scanning goes on as if that character
were not there (DESIGN CHOICE, log entry 15). -/
def readLine (cs : List Char) : SourceLine :=
  let body := stripComment cs
  let line := readTokens (tokensFrom [] (body.filter isSourceChar))
  { line with errors := (body.filter fun c => !isSourceChar c).map (fun _ => .lexicalError) ++ line.errors }

/-- The value of a non-empty string of decimal digits. -/
def readDecimal (cs : List Char) : Option Nat :=
  if cs.isEmpty || !cs.all isDigitChar then none
  else some (cs.foldl (fun n c => 10 * n + (c.toNat - 48)) 0)

/-- A decimal literal with an optional `-` (R79). -/
def readSigned : List Char → Option Int
  | '-' :: cs => (readDecimal cs).map fun n => -(n : Int)
  | cs => (readDecimal cs).map fun n => (n : Int)

/-! ### Operands (R78, R79, R81) -/

/-- A label of the unit and its address. -/
abbrev LabelTable := List (List Char × Nat)

/-- The address of a label; of a label declared more than once, that of the first declaration (DESIGN CHOICE, log entry 15;
such a unit has no output, R82). -/
def LabelTable.find (t : LabelTable) (name : List Char) : Option Nat :=
  (t.find? fun e => e.1 == name).map fun e => e.2

/-- `R<digits>` with a value below 32; any other token in a register place is InvalidOperand (R78). -/
def readRegister : List Char → Except AsmErrorKind Reg
  | 'R' :: ds =>
    match readDecimal ds with
    | none => .error .invalidOperand
    | some n => if h : n < 32 then .ok ⟨n, h⟩ else .error .invalidOperand
  | _ => .error .invalidOperand

/-- An immediate or offset value in -2^31 to 2^31-1 (R79), as the operand sext_64 makes of its field (R68). -/
def immediateOf (v : Int) : Except AsmErrorKind Word :=
  if -(2 ^ 31) ≤ v ∧ v < 2 ^ 31 then .ok (BitVec.ofInt 64 v) else .error .invalidOperand

/-- An immediate literal (R79). A token that is no literal at all (`12ab`, a name) is InvalidOperand, as a literal out of
range is: R79 and R82 leave its kind open. DESIGN CHOICE, log entry 15. -/
def readImmediate (t : List Char) : Except AsmErrorKind Word :=
  match readSigned t with
  | none => .error .invalidOperand
  | some v => immediateOf v

/-- An address literal or a label (R79, R81): a label the unit lacks gives the placeholder 0 and a relocation. A token that
is neither is InvalidOperand (DESIGN CHOICE, log entry 15). -/
def readAddress (labels : LabelTable) (t : List Char) : Except AsmErrorKind (Word × Option (List Char)) :=
  if isIdentifier t then
    match labels.find t with
    | none => .ok (0#64, some t)
    | some a => if a < 2 ^ 48 then .ok (BitVec.ofNat 64 a, none) else .error .invalidOperand
  else
    match readDecimal t with
    | none => .error .invalidOperand
    | some a => if a < 2 ^ 48 then .ok (BitVec.ofNat 64 a, none) else .error .invalidOperand

/-- A branch offset literal, or a label of the unit: `label_address - (branch_address + 8)` (R79, R81). A label the unit
lacks is an InvalidOperand (R81), and so is a token that is neither (DESIGN CHOICE, log entry 15). -/
def readOffset (labels : LabelTable) (here : Nat) (t : List Char) : Except AsmErrorKind Word :=
  if isIdentifier t then
    match labels.find t with
    | none => .error .invalidOperand
    | some a => immediateOf ((a : Int) - ((here : Int) + 8))
  else readImmediate t

/-! ### Instructions (R80) -/

/-- The operand shape of a mnemonic, with the instruction it makes (R80). -/
inductive Template where
  | rrr (mk : Reg → Reg → Reg → Instr)
  | rri (mk : Reg → Reg → Word → Instr)
  | ri (mk : Reg → Word → Instr)
  | ra (mk : Reg → Word → Instr)
  | a (mk : Word → Instr)
  | r (mk : Reg → Instr)
  | rro (mk : Reg → Reg → Word → Instr)
  | none (i : Instr)

/-- The mnemonics, in upper case exactly as in R67; there are no pseudo-instructions (R78, R83). -/
def mnemonics : List (String × Template) :=
  [("ADD", .rrr .add), ("SUB", .rrr .sub), ("MUL", .rrr .mul), ("DIV", .rrr .div), ("AND", .rrr .and),
   ("OR", .rrr .or), ("XOR", .rrr .xor), ("SLL", .rrr .sll), ("SRL", .rrr .srl), ("SRA", .rrr .sra),
   ("CMP", .rrr .cmp), ("ADDI", .rri .addi), ("SUBI", .rri .subi), ("ANDI", .rri .andi), ("ORI", .rri .ori),
   ("XORI", .rri .xori), ("LI", .ri .li), ("LOAD", .ra .load), ("STORE", .ra .store), ("JMP", .a .jmp),
   ("JR", .r .jr), ("BEQ", .rro .beq), ("BNE", .rro .bne), ("HALT", .none .halt)]

/-- The shape of a mnemonic, or UnknownMnemonic (R78). -/
def templateOf (name : List Char) : Except AsmErrorKind Template :=
  match mnemonics.find? fun e => e.1.toList == name with
  | Option.none => .error .unknownMnemonic
  | some e => .ok e.2

/-- A value, or every error found on the way to it (R82). -/
abbrev Checked (α : Type) := Except (List AsmErrorKind) α

/-- Both a function and its argument, or the errors of the two, those of the function first. -/
def applyChecked {α β : Type} (f : Checked (α → β)) (x : Checked α) : Checked β :=
  match f, x with
  | .ok g, .ok a => .ok (g a)
  | .ok _, .error es => .error es
  | .error es, .ok _ => .error es
  | .error es, .error es' => .error (es ++ es')

/-- The operand token `k` of a line, read by `read`; a missing operand is an InvalidOperand (R82). -/
def operandAt {α : Type} (read : List Char → Except AsmErrorKind α) (ops : List (List Char)) (k : Nat) : Checked α :=
  match ops[k]? with
  | Option.none => .error [.invalidOperand]
  | some t =>
    match read t with
    | .error e => .error [e]
    | .ok v => .ok v

/-- The value of a line whose shape takes `n` operands: more tokens are one SyntaxError (R82; DESIGN CHOICE, log
entry 15). -/
def withArity {α : Type} (n : Nat) (ops : List (List Char)) (x : Checked α) : Checked α :=
  applyChecked (applyChecked (.ok fun v _ => v) x) (if ops.length ≤ n then .ok () else .error [.syntaxError])

/-- The instruction a shape makes of its operand tokens, with the symbol of its relocation, if any; or every error of the
operands, from left to right (R80, R82). -/
def Template.build (labels : LabelTable) (here : Nat) (t : Template) (ops : List (List Char)) :
    Checked (Instr × Option (List Char)) :=
  let reg := operandAt readRegister ops
  let imm := operandAt readImmediate ops
  let addr := operandAt (readAddress labels) ops
  let off := operandAt (readOffset labels here) ops
  match t with
  | .rrr mk =>
    withArity 3 ops <| applyChecked (applyChecked (applyChecked
      (.ok fun rd rs1 rs2 => (mk rd rs1 rs2, Option.none)) (reg 0)) (reg 1)) (reg 2)
  | .rri mk =>
    withArity 3 ops <| applyChecked (applyChecked (applyChecked
      (.ok fun rd rs1 v => (mk rd rs1 v, Option.none)) (reg 0)) (reg 1)) (imm 2)
  | .ri mk => withArity 2 ops <| applyChecked (applyChecked (.ok fun rd v => (mk rd v, Option.none)) (reg 0)) (imm 1)
  | .ra mk => withArity 2 ops <| applyChecked (applyChecked (.ok fun r a => (mk r a.1, a.2)) (reg 0)) (addr 1)
  | .a mk => withArity 1 ops <| applyChecked (.ok fun a => (mk a.1, a.2)) (addr 0)
  | .r mk => withArity 1 ops <| applyChecked (.ok fun rs => (mk rs, Option.none)) (reg 0)
  | .rro mk =>
    withArity 3 ops <| applyChecked (applyChecked (applyChecked
      (.ok fun rs1 rs2 v => (mk rs1 rs2 v, Option.none)) (reg 0)) (reg 1)) (off 2)
  | .none i => withArity 0 ops (.ok (i, Option.none))

/-- The instruction of one instruction line at address `here`, or every error of its mnemonic and operands (R80, R82). The
operands of an unknown mnemonic have no shape to be checked against. -/
def assembleInstr (labels : LabelTable) (here : Nat) (mnemonic : List Char) (operands : List (List Char)) :
    Checked (Instr × Option (List Char)) :=
  match templateOf mnemonic with
  | .error e => .error [e]
  | .ok t => t.build labels here operands

/-! ### Units (R77, R81, R82) -/

/-- A deferred patch: the offset of the word and the symbol it refers to (R81). -/
structure Relocation where
  offset : Nat
  symbol : List Char
deriving DecidableEq, Repr

/-- What a unit without errors assembles to: its words, its labels and its relocations. -/
structure AsmOutput where
  words : List Word
  labels : LabelTable
  relocations : List Relocation
deriving DecidableEq, Repr

/-- The address after a line: an instruction line advances it by 8, every other line by nothing (R77). -/
def addressAfter (here : Nat) (l : SourceLine) : Nat := if l.instruction.isSome then here + 8 else here

/-- Pass 1 (R81): the labels and their addresses, each that of the next instruction (R77). A label with no instruction after
it in the unit is accepted and gets the address just past the last instruction, on which R77 is silent: DESIGN CHOICE,
log entry 15. -/
def labelsFrom (here : Nat) : List SourceLine → LabelTable
  | [] => []
  | l :: rest =>
    match l.label with
    | Option.none => labelsFrom (addressAfter here l) rest
    | some name => (name, here) :: labelsFrom (addressAfter here l) rest

/-- The labels declared so far, after a line. -/
def seenAfter (seen : List (List Char)) (l : SourceLine) : List (List Char) := l.label.toList ++ seen

/-- The words and relocations of one line, and every error of it: of its text, of its label, of its instruction (R82).
`seen` holds the labels of the lines before: of a label declared more than once every later declaration has the
DuplicateLabel and the first has none, on which R82 is silent (DESIGN CHOICE, log entry 15). -/
def emitLine (labels : LabelTable) (here : Nat) (seen : List (List Char)) (l : SourceLine) :
    List AsmErrorKind × List Word × List Relocation :=
  let early := l.errors ++ if l.label.any seen.contains then [.duplicateLabel] else []
  match l.instruction with
  | Option.none => (early, [], [])
  | some (m, ops) =>
    match assembleInstr labels here m ops with
    | .error es => (early ++ es, [], [])
    | .ok (i, Option.none) => (early, [encode i], [])
    | .ok (i, some symbol) => (early, [encode i], [⟨here, symbol⟩])

/-- Pass 2: the words and relocations of the lines, and every error with its line (R82). -/
def emitFrom (labels : LabelTable) (line here : Nat) (seen : List (List Char)) :
    List SourceLine → List AsmError × List Word × List Relocation
  | [] => ([], [], [])
  | l :: rest =>
    let (es, ws, rs) := emitLine labels here seen l
    let (errs, ws', rs') := emitFrom labels (line + 1) (addressAfter here l) (seenAfter seen l) rest
    (es.map (fun e => ⟨line, e⟩) ++ errs, ws ++ ws', rs ++ rs')

/-- A source unit: its output, or all its errors and no output (R82). -/
def assemble (lines : List (List Char)) : Except (List AsmError) AsmOutput :=
  let parsed := lines.map readLine
  let labels := labelsFrom 0 parsed
  match emitFrom labels 1 0 [] parsed with
  | ([], ws, rs) => .ok { words := ws, labels := labels, relocations := rs }
  | (errs, _, _) => .error errs

/-! ### The linker's patch (R84) -/

/-- Patching an instruction word: the address field only; an address of 2^48 or more is a link error (R84). -/
def patchInstruction (w : Word) (resolved : Nat) : Option Word :=
  if resolved < 2 ^ 48 then some ((w.extractLsb' 48 16 : BitVec 16) ++ BitVec.ofNat 48 resolved) else Option.none

/-- Patching a data word: all 8 bytes, little-endian (R84). Where the 8 bytes run past the end of the section, the section
becomes longer, and an offset beyond the end appends them at the end; R84 is silent on it: DESIGN CHOICE, log entry 19. -/
def patchData (data : List Byte) (offset : Nat) (resolved : Word) : List Byte :=
  data.take offset ++ bytesOfWord resolved ++ data.drop (offset + 8)

end Sys2Proof.Machine
end

