-- ==== Sys2Proof/Machine/Platform.lean ====
section
/-! DEFINITION. The host's side of the core: reset, the executable image and its loader, the input device's supply and
the read-back port (spec/10_state.md R39, spec/70_reset_and_hazards.md R128 to R135, R139). -/

namespace Sys2Proof.Machine

open Sys2Proof

/-! ### Reset (R128 to R130) -/

/-- Asserting reset with `reset_pc` (R128, R129): memory and the input stream are not changed, and `resetPc` is not
checked (R130). -/
def State.assertReset (s : State) (resetPc : Word) : State :=
  { config := s.config
    regs := Vector.replicate 32 0#64
    pc := resetPc
    flagZ := false
    flagN := false
    flagC := false
    flagV := false
    running := true
    haltCause := 0#3
    faultSub := 0#3
    faultPc := 0#64
    faultWord := 0#64
    faultAddr := 0#64
    mem := s.mem
    input := s.input
    output := [] }

/-! ### The executable image (R131, R132) -/

/-- What the loader takes from an image file (R132). -/
structure Image where
  /-- `entry_point`, the RESET_PC of the run (R130). -/
  entryPoint : Word
  /-- The code bytes, placed at address 0 (R131). -/
  code : List Byte
  /-- The data bytes, placed after the code (R131). -/
  data : List Byte
deriving DecidableEq, Repr

/-- A little-endian unsigned integer (R132). -/
def leNat : List Byte → Nat
  | [] => 0
  | b :: bs => b.toNat + 256 * leNat bs

/-- The `len` bytes of a file from byte offset `off`, read as a little-endian integer. -/
def headerField (file : List Byte) (off len : Nat) : Nat := leNat ((file.drop off).take len)

/-- The packed header's length (R132). -/
def headerBytes : Nat := 30

/-- Reading an image file (R132): magic at 0, version at 4, code_size at 6, data_size at 14, entry_point at 22, code from
byte 30. `none` when the loader refuses it: wrong magic or version, too large for memory, or shorter than the header
says. Bytes after the data are not read (log entry 10). -/
def parseImage (magic : BitVec 32) (version : BitVec 16) (memBytes : Nat) (file : List Byte) : Option Image :=
  let codeSize := headerField file 6 8
  let dataSize := headerField file 14 8
  if file.length < headerBytes then none
  else if headerField file 0 4 ≠ magic.toNat then none
  else if headerField file 4 2 ≠ version.toNat then none
  else if memBytes < codeSize + dataSize then none
  else if file.length < headerBytes + codeSize + dataSize then none
  else
    some
      { entryPoint := BitVec.ofNat 64 (headerField file 22 8)
        code := (file.drop headerBytes).take codeSize
        data := (file.drop (headerBytes + codeSize)).take dataSize }

/-- The memory at the start of a run (R131): code from 0, data after it, every other byte 0. -/
def Image.memory (img : Image) : Memory := Memory.writeBytes [] 0 (img.code ++ img.data)

/-- The start of a run (R134 (1), (2)): with the core held in reset the image is loaded, then reset is released with
`reset_pc = entry_point`. -/
def State.boot (s : State) (img : Image) : State :=
  (s.assertReset img.entryPoint).setMem img.memory

/-! ### What the host may do (R139) -/

/-- A host action that changes the machine (R39, R139). Accepting output and reading back change nothing. -/
inductive HostAction where
  /-- Assert reset, presenting `reset_pc` (R128). -/
  | assertReset (resetPc : Word)
  /-- Hold the core in reset, load an image file and start the core (R131, R132, R134). -/
  | loadImage (file : List Byte)
  /-- Hold the core in reset, write bytes through the loader port in the order given, and release reset with `reset_pc`
  (R39, R139). -/
  | loadInReset (cells : List Host.Cell) (resetPc : Word)
  /-- Write one byte of memory through the loader port of a Halted core (R39). -/
  | loadByte (a : Nat) (b : Byte)
  /-- Supply the next value of the input stream (R34, R47). -/
  | supplyInput (v : Word)
deriving DecidableEq, Repr

/-- The state after a host action, `none` when the action has no move (R139): a refused image (R132), a loader byte
outside memory or while the core is Running (R39; log entry 11). -/
def hostAct (act : HostAction) (s : State) : Option State :=
  match act with
  | .assertReset resetPc => some (s.assertReset resetPc)
  | .loadImage file =>
    match parseImage Config.imageMagic Config.imageVersion s.config.memBytes file with
    | none => none
    | some img => some (s.boot img)
  | .loadInReset cells resetPc =>
    if cells.all (fun c => decide (c.1 < s.config.memBytes)) then
      some ((s.assertReset resetPc).setMem (s.mem.writeCells cells))
    else none
  | .loadByte a b =>
    if s.running = true then none
    else if a < s.config.memBytes then some (s.setMem (s.mem.write a b))
    else none
  | .supplyInput v => some (s.setInput (s.input ++ [v]))

/-! ### The result of a run (R39, R135) -/

/-- What the host reads back: the state of the read port and the status outputs, and the output events (R39). -/
structure Observation where
  regs : Vector Word 32
  pc : Word
  flagZ : Bool
  flagN : Bool
  flagC : Bool
  flagV : Bool
  haltCause : BitVec 3
  faultSub : BitVec 3
  faultPc : Word
  faultWord : Word
  faultAddr : Word
  mem : Memory
  output : List Word
deriving DecidableEq, Repr

/-- The result of a run: the read-back once the core is Halted, nothing before (R39, R135). -/
def State.readBack (s : State) : Option Observation :=
  if s.running = true then none
  else
    some
      { regs := s.regs
        pc := s.pc
        flagZ := s.flagZ
        flagN := s.flagN
        flagC := s.flagC
        flagV := s.flagV
        haltCause := s.haltCause
        faultSub := s.faultSub
        faultPc := s.faultPc
        faultWord := s.faultWord
        faultAddr := s.faultAddr
        mem := s.mem
        output := s.output }

end Sys2Proof.Machine
end

