-- ==== Sys2Proof/Safety.lean ====
section
/-! DEFINITION. The words claims use: which states the rules of the spec admit, and how a run ended. -/

namespace Sys2Proof.Machine

open Sys2Proof

/-- The step at `s` fetches and decodes `i`. -/
def Runs (s : State) (i : Instr) : Prop := ∃ w, s.fetch s.pc = .ok w ∧ decode w = .ok i

/-- The register an instruction writes (spec/10_state.md R18). -/
def destOf : Instr → Option Reg
  | .add rd _ _ => some rd
  | .sub rd _ _ => some rd
  | .mul rd _ _ => some rd
  | .div rd _ _ => some rd
  | .and rd _ _ => some rd
  | .or rd _ _ => some rd
  | .xor rd _ _ => some rd
  | .sll rd _ _ => some rd
  | .srl rd _ _ => some rd
  | .sra rd _ _ => some rd
  | .cmp _ _ _ => none
  | .addi rd _ _ => some rd
  | .subi rd _ _ => some rd
  | .andi rd _ _ => some rd
  | .ori rd _ _ => some rd
  | .xori rd _ _ => some rd
  | .li rd _ => some rd
  | .load rd _ => some rd
  | .store _ _ => none
  | .jmp _ => none
  | .jr _ => none
  | .beq _ _ _ => none
  | .bne _ _ _ => none
  | .halt => none

/-- Memory has its canonical form and lists only addresses of memory (spec/10_state.md R32). -/
abbrev State.MemoryOk (s : State) : Prop :=
  s.mem.wf = true ∧ s.mem.below s.config.memBytes = true

/-- While Running the five status registers hold their reset values (spec/10_state.md R26 to R30). -/
abbrev State.RunningRecord (s : State) : Prop :=
  s.haltCause = 0#3 ∧ s.faultSub = 0#3 ∧ s.faultPc = 0#64 ∧ s.faultWord = 0#64 ∧ s.faultAddr = 0#64

/-- The record of a HALT (spec/45_system.md R115). -/
abbrev State.HaltRecord (s : State) : Prop :=
  s.haltCause = 1#3 ∧ s.faultSub = 0#3 ∧ s.faultAddr = 0#64 ∧
  s.faultWord = 0xF000000000000000#64 ∧ s.pc = s.faultPc + 8#64

/-- The record of a division by zero (spec/60_exceptions.md R117). -/
abbrev State.DivisionRecord (s : State) : Prop :=
  s.haltCause = 2#3 ∧ s.faultSub = 0#3 ∧ s.faultAddr = 0#64 ∧
  opField s.faultWord = 0x04#8 ∧ s.pc = s.faultPc + 8#64

/-- The record of a failed fetch: no word, and `pc` has not advanced (spec/60_exceptions.md R117 to R119). -/
abbrev State.FetchRecord (s : State) : Prop :=
  s.haltCause = 3#3 ∧ (s.faultSub = 1#3 ∨ s.faultSub = 2#3) ∧
  s.faultAddr = s.faultPc ∧ s.faultWord = 0#64 ∧ s.pc = s.faultPc

/-- The record of a failed load or store (spec/60_exceptions.md R117 to R119). -/
abbrev State.DataRecord (s : State) : Prop :=
  s.haltCause = 3#3 ∧
  ((opField s.faultWord = 0x20#8 ∧ (s.faultSub = 3#3 ∨ s.faultSub = 4#3)) ∨
   (opField s.faultWord = 0x21#8 ∧ (s.faultSub = 5#3 ∨ s.faultSub = 6#3))) ∧
  s.pc = s.faultPc + 8#64

/-- The record of a word that does not decode (spec/60_exceptions.md R117). -/
abbrev State.DecodeRecord (s : State) : Prop :=
  ((s.haltCause = 4#3 ∧ s.faultSub = 0#3 ∧ decode s.faultWord = .error .unknownOpcode) ∨
   (s.haltCause = 5#3 ∧ s.faultSub = 1#3 ∧ decode s.faultWord = .error .registerField) ∨
   (s.haltCause = 5#3 ∧ s.faultSub = 2#3 ∧ decode s.faultWord = .error .mustBeZero)) ∧
  s.faultAddr = 0#64 ∧ s.pc = s.faultPc + 8#64

/-- The record of a Halted core is one the rules can write (spec/60_exceptions.md R117 to R119, spec/45_system.md R115). -/
abbrev State.HaltedRecord (s : State) : Prop :=
  s.HaltRecord ∨ s.DivisionRecord ∨ s.FetchRecord ∨ s.DataRecord ∨ s.DecodeRecord

/-- The invariant of the machine: legal parameters, memory in form and in range, C and V at their reset value 0, and
status registers that tell the run state. -/
abbrev State.Inv (s : State) : Prop :=
  s.config.Legal ∧ s.MemoryOk ∧ s.flagC = false ∧ s.flagV = false ∧
  (s.running = true → s.RunningRecord) ∧ (s.running = false → s.HaltedRecord)

/-- The run ended by HALT (spec/45_system.md R115: the normal end of a run). -/
abbrev State.EndedNormally (s : State) : Prop := s.running = false ∧ s.haltCause = 1#3

/-- The run ended by a fault (spec/60_exceptions.md R117). -/
abbrev State.EndedByFault (s : State) : Prop := s.running = false ∧ 2#3 ≤ s.haltCause ∧ s.haltCause ≤ 5#3

end Sys2Proof.Machine
end

