-- ==== Sys2Proof/Certificates/Slice0/Obligations.lean ====
section
/-! DEFINITION. The statements for the provers. Each one's docstring names the rule of spec/ it formalises. -/

namespace Sys2Proof.Claims

open Sys2Proof Sys2Proof.Machine

/-! ### Words as numbers, so that a statement does not lean on the model's own field functions -/

/-- The word with OP, RD, RS1, RS2 and the low 32 bits as given (spec/30_encoding.md R58). -/
def word (op rd rs1 rs2 low : Nat) : Word :=
  BitVec.ofNat 64 (op * 2 ^ 56 + rd * 2 ^ 48 + rs1 * 2 ^ 40 + rs2 * 2 ^ 32 + low)

/-- The word with OP, RD and ADDR48 as given (spec/30_encoding.md R58). -/
def wordA (op rd addr : Nat) : Word := BitVec.ofNat 64 (op * 2 ^ 56 + rd * 2 ^ 48 + addr)

/-- The 8-bit field of `w` at bit `k`. -/
def fieldAt (w : Word) (k : Nat) : Nat := w.toNat / 2 ^ k % 256

/-- Byte `i` of `v` as a number. -/
def byteAt (v : Word) (i : Nat) : Nat := v.toNat / 2 ^ (8 * i) % 256

/-- The opcodes that spec/30_encoding.md R74 lists as unassigned. -/
abbrev Unassigned (op : Nat) : Prop :=
  op = 0x00 ∨ (0x0C ≤ op ∧ op ≤ 0x0F) ∨ (0x16 ≤ op ∧ op ≤ 0x1F) ∨ (0x22 ≤ op ∧ op ≤ 0x2F) ∨
  (0x34 ≤ op ∧ op ≤ 0xEF) ∨ (0xF1 ≤ op ∧ op ≤ 0xFF)

/-- The register fields (by their lowest bit) and the must-be-zero mask of an assigned opcode's format
(spec/30_encoding.md R59 to R66, R71). -/
def formatOf (op : Nat) : List Nat × Nat :=
  if op ≤ 0x0B then ([48, 40, 32], 0x00000000FFFFFFFF)
  else if op ≤ 0x14 then ([48, 40], 0x000000FF00000000)
  else if op = 0x15 then ([48], 0x0000FFFF00000000)
  else if op ≤ 0x21 then ([48], 0)
  else if op = 0x30 then ([], 0x00FF000000000000)
  else if op = 0x31 then ([40], 0x00FF00FFFFFFFFFF)
  else if op ≤ 0x33 then ([40, 32], 0x00FF000000000000)
  else ([], 0x00FFFFFFFFFFFFFF)

/-! ### What stays and what changes -/

/-- Every general register is as before. -/
def SameRegs (s t : State) : Prop := ∀ q, t.reg q = s.reg q

/-- All four flags are as before. -/
def SameFlags (s t : State) : Prop :=
  t.flagZ = s.flagZ ∧ t.flagN = s.flagN ∧ t.flagC = s.flagC ∧ t.flagV = s.flagV

/-- The run state and the five status registers are as before. -/
def SameStatus (s t : State) : Prop :=
  t.running = s.running ∧ t.haltCause = s.haltCause ∧ t.faultSub = s.faultSub ∧ t.faultPc = s.faultPc ∧
  t.faultWord = s.faultWord ∧ t.faultAddr = s.faultAddr

/-- Every byte of memory reads as before, and the parameters are the same. -/
def SameMemory (s t : State) : Prop := (∀ a, t.readByte a = s.readByte a) ∧ t.config = s.config

/-- Both streams are as before. -/
def SameStreams (s t : State) : Prop := t.input = s.input ∧ t.output = s.output

/-- `t` is `s` after an instruction that writes `v` to `rd`: `pc` is advanced, and every other register, the flags, the
status registers and memory are as before. -/
def Writes (s t : State) (rd : Reg) (v : Word) : Prop :=
  t.reg rd = v ∧ (∀ q, q ≠ rd → t.reg q = s.reg q) ∧ t.pc = s.pc + 8#64 ∧
  SameFlags s t ∧ SameStatus s t ∧ SameMemory s t

/-- `t` is `s` but for `pc`, which is `target`. -/
def Jumps (s t : State) (target : Word) : Prop :=
  t.pc = target ∧ SameRegs s t ∧ SameFlags s t ∧ SameStatus s t ∧ SameMemory s t ∧ SameStreams s t

/-- `t` is `s` halted with the record given and `pc` as given; nothing else has changed
(spec/60_exceptions.md R119, spec/45_system.md R115). -/
def Halts (s t : State) (cause sub : BitVec 3) (w addr pc' : Word) : Prop :=
  t.running = false ∧ t.haltCause = cause ∧ t.faultSub = sub ∧ t.faultPc = s.pc ∧ t.faultWord = w ∧
  t.faultAddr = addr ∧ t.pc = pc' ∧
  SameRegs s t ∧ SameFlags s t ∧ SameMemory s t ∧ SameStreams s t

/-- `t` is `s` with every piece of core state at the reset value of R129, `pc` at `p`, the output stream empty and the
input stream as it was; memory is not spoken of (spec/70_reset_and_hazards.md R129). -/
def ResetTo (s t : State) (p : Word) : Prop :=
  (∀ r, t.reg r = 0#64) ∧ t.pc = p ∧
  t.flagZ = false ∧ t.flagN = false ∧ t.flagC = false ∧ t.flagV = false ∧ t.running = true ∧
  t.haltCause = 0#3 ∧ t.faultSub = 0#3 ∧ t.faultPc = 0#64 ∧ t.faultWord = 0#64 ∧ t.faultAddr = 0#64 ∧
  t.config = s.config ∧ t.input = s.input ∧ t.output = []

/-- Everything the host reads from the core but memory is as before (spec/10_state.md R38, R39). -/
def SameCore (s t : State) : Prop :=
  t.pc = s.pc ∧ SameRegs s t ∧ SameFlags s t ∧ SameStatus s t ∧ t.output = s.output ∧ t.config = s.config

/-- The `k` little-endian bytes of `n`. -/
def leBytes (k n : Nat) : List Byte := (List.range k).map fun i => BitVec.ofNat 8 (n / 256 ^ i)

/-- An image file with the header fields, code and data given (spec/70_reset_and_hazards.md R132). -/
def imageFile (magic version codeSize dataSize entry : Nat) (body : List Byte) : List Byte :=
  leBytes 4 magic ++ leBytes 2 version ++ leBytes 8 codeSize ++ leBytes 8 dataSize ++ leBytes 8 entry ++ body

/-- The line of mnemonic `m` and operand tokens `ops` makes `i`, with the symbol of its relocation, and its word is `w`
(spec/30_encoding.md R80). -/
def LineMakes (labels : LabelTable) (here : Nat) (m : String) (ops : List (List Char)) (i : Instr)
    (symbol : Option (List Char)) (w : Word) : Prop :=
  assembleInstr labels here m.toList ops = .ok (i, symbol) ∧ encode i = w

/-- The unit has no output, and error `k` is reported with line `n`, counted from 0 (spec/30_encoding.md R82). -/
def Reported (lines : List (List Char)) (n : Nat) (k : AsmErrorKind) : Prop :=
  ∃ errs, assemble lines = .error errs ∧ { line := n + 1, kind := k } ∈ errs

/-- How many of its first operands are registers, for each mnemonic (spec/30_encoding.md R80). -/
def registerPlaces (m : String) : Nat :=
  if m ∈ ["ADD", "SUB", "MUL", "DIV", "AND", "OR", "XOR", "SLL", "SRL", "SRA", "CMP"] then 3
  else if m ∈ ["ADDI", "SUBI", "ANDI", "ORI", "XORI", "BEQ", "BNE"] then 2
  else if m ∈ ["LI", "LOAD", "STORE", "JR"] then 1
  else 0

/-- The address of line `n`, counted from 0: 8 for every instruction line before it (spec/30_encoding.md R77). -/
def addressOf (lines : List (List Char)) (n : Nat) : Nat :=
  8 * ((lines.take n).countP fun l => (readLine l).instruction.isSome)

/-- The token of the decimal digits `ds`. -/
def digitToken (ds : List (Fin 10)) : List Char := ds.map fun d => Char.ofNat (48 + d.val)

/-- The number the decimal digits `ds` write, the first the most significant. -/
def decimalValue (ds : List (Fin 10)) : Nat := Nat.ofDigits 10 (ds.map fun d => d.val).reverse

end Sys2Proof.Claims

open Sys2Proof Sys2Proof.Machine Sys2Proof.Claims

/-! ## Encoding -/

/-- R76: decoding an encoded well-formed instruction gives it back, and encoding a decoded word gives the word back. -/
def Obligations.DecodeEncodeRoundTrip : Prop :=
  (∀ i : Instr, i.wellFormed = true → decode (encode i) = .ok i) ∧
  (∀ (w : Word) (i : Instr), decode w = .ok i → encode i = w ∧ i.wellFormed = true)

/-- R58 to R67, R80: the word of every instruction, written as a sum of its fields. -/
def Obligations.EncodedWordLayout : Prop :=
  (∀ rd rs1 rs2 : Reg,
    encode (.add rd rs1 rs2) = word 0x01 rd rs1 rs2 0 ∧ encode (.sub rd rs1 rs2) = word 0x02 rd rs1 rs2 0 ∧
    encode (.mul rd rs1 rs2) = word 0x03 rd rs1 rs2 0 ∧ encode (.div rd rs1 rs2) = word 0x04 rd rs1 rs2 0 ∧
    encode (.and rd rs1 rs2) = word 0x05 rd rs1 rs2 0 ∧ encode (.or rd rs1 rs2) = word 0x06 rd rs1 rs2 0 ∧
    encode (.xor rd rs1 rs2) = word 0x07 rd rs1 rs2 0 ∧ encode (.sll rd rs1 rs2) = word 0x08 rd rs1 rs2 0 ∧
    encode (.srl rd rs1 rs2) = word 0x09 rd rs1 rs2 0 ∧ encode (.sra rd rs1 rs2) = word 0x0A rd rs1 rs2 0 ∧
    encode (.cmp rd rs1 rs2) = word 0x0B rd rs1 rs2 0) ∧
  (∀ (rd rs1 : Reg) (f : BitVec 32),
    encode (.addi rd rs1 (f.signExtend 64)) = word 0x10 rd rs1 0 f.toNat ∧
    encode (.subi rd rs1 (f.signExtend 64)) = word 0x11 rd rs1 0 f.toNat ∧
    encode (.andi rd rs1 (f.signExtend 64)) = word 0x12 rd rs1 0 f.toNat ∧
    encode (.ori rd rs1 (f.signExtend 64)) = word 0x13 rd rs1 0 f.toNat ∧
    encode (.xori rd rs1 (f.signExtend 64)) = word 0x14 rd rs1 0 f.toNat ∧
    encode (.li rd (f.signExtend 64)) = word 0x15 rd 0 0 f.toNat) ∧
  (∀ (r : Reg) (f : BitVec 48),
    encode (.load r (f.zeroExtend 64)) = wordA 0x20 r f.toNat ∧
    encode (.store r (f.zeroExtend 64)) = wordA 0x21 r f.toNat ∧
    encode (.jmp (f.zeroExtend 64)) = wordA 0x30 0 f.toNat) ∧
  (∀ (rs1 rs2 : Reg) (f : BitVec 32),
    encode (.jr rs1) = word 0x31 0 rs1 0 0 ∧
    encode (.beq rs1 rs2 (f.signExtend 64)) = word 0x32 0 rs1 rs2 f.toNat ∧
    encode (.bne rs1 rs2 (f.signExtend 64)) = word 0x33 0 rs1 rs2 f.toNat) ∧
  encode .halt = word 0xF0 0 0 0 0

/-- R67 and spec/95_test_vectors.md: example words, one of each format, decode to the instructions they stand for. -/
def Obligations.ExampleWordsDecode : Prop :=
  decode 0x0103010200000000#64 = .ok (.add 3 1 2) ∧
  decode 0x0B07010200000000#64 = .ok (.cmp 7 1 2) ∧
  decode 0x10010200FFFFFFFF#64 = .ok (.addi 1 2 (-1)) ∧
  decode 0x1501000080000000#64 = .ok (.li 1 0xFFFFFFFF80000000#64) ∧
  decode 0x2004000000000100#64 = .ok (.load 4 256) ∧
  decode 0x2101FFFFFFFFFFF8#64 = .ok (.store 1 0x0000FFFFFFFFFFF8#64) ∧
  decode 0x3000000000000028#64 = .ok (.jmp 40) ∧
  decode 0x3100050000000000#64 = .ok (.jr 5) ∧
  decode 0x33000203FFFFFFE8#64 = .ok (.bne 2 3 (-24)) ∧
  decode 0xF000000000000000#64 = .ok .halt

/-- R72, R73, R74 in the order of R75: a running core that has fetched `w` halts with UnknownOpcode when the opcode is
unassigned, else with InvalidInstruction 1 when a register field of its format is 32 or more, else with
InvalidInstruction 2 when a must-be-zero bit is set; and every other word decodes. -/
def Obligations.BadWordsHaltTheCore : Prop :=
  ∀ (s : State) (w : Word), s.running = true → s.fetch s.pc = .ok w →
    (Unassigned (fieldAt w 56) →
      ∃ t, step s = .next t ∧ Halts s t 4#3 0#3 w 0#64 (s.pc + 8#64)) ∧
    (¬ Unassigned (fieldAt w 56) →
      ((∃ k ∈ (formatOf (fieldAt w 56)).1, 32 ≤ fieldAt w k) →
        ∃ t, step s = .next t ∧ Halts s t 5#3 1#3 w 0#64 (s.pc + 8#64)) ∧
      ((∀ k ∈ (formatOf (fieldAt w 56)).1, fieldAt w k < 32) →
        (w.toNat &&& (formatOf (fieldAt w 56)).2 ≠ 0 →
          ∃ t, step s = .next t ∧ Halts s t 5#3 2#3 w 0#64 (s.pc + 8#64)) ∧
        (w.toNat &&& (formatOf (fieldAt w 56)).2 = 0 → ∃ i, decode w = .ok i)))

/-! ## The step -/

/-- R37: a step of a running core whose fetch PC holds a word that decodes to `i` is exactly `exec i`. -/
def Obligations.StepRunsDecodedInstruction : Prop :=
  ∀ (s : State) (w : Word) (i : Instr), s.running = true → s.fetch s.pc = .ok w → decode w = .ok i →
    step s = exec i s

/-- R40: a fetch checks alignment, then the range, and reads the little-endian word of memory; it holds at every
address, the device addresses among them. -/
def Obligations.FetchReadsAlignedWord : Prop :=
  ∀ (s : State) (a : Word),
    (a.toNat % 8 ≠ 0 → s.fetch a = .error (.memoryFault .fetch .misaligned a)) ∧
    (a.toNat % 8 = 0 → s.config.memBytes < a.toNat + 8 →
      s.fetch a = .error (.memoryFault .fetch .outOfRange a)) ∧
    (a.toNat % 8 = 0 → a.toNat + 8 ≤ s.config.memBytes →
      ∃ w, s.fetch a = .ok w ∧ ∀ i < 8, byteAt w i = (s.readByte (a.toNat + i)).toNat)

/-- R40, R119, R121: a running core whose fetch PC is misaligned halts with MemoryFault 2, one whose fetch PC is aligned
and out of range with MemoryFault 1; no word is recorded and `pc` has not advanced. -/
def Obligations.FailedFetchHalts : Prop :=
  ∀ s : State, s.running = true →
    (s.pc.toNat % 8 ≠ 0 → ∃ t, step s = .next t ∧ Halts s t 3#3 2#3 0#64 s.pc s.pc) ∧
    (s.pc.toNat % 8 = 0 → s.config.memBytes < s.pc.toNat + 8 →
      ∃ t, step s = .next t ∧ Halts s t 3#3 1#3 0#64 s.pc s.pc)

/-- A running core always has a next state; the model neither refuses nor faults there. R36 says so of a core whose step
happens. That a core whose LOAD waits for input, which has no step in the spec (R33, R47), has the same state as its next
one is the model's choice (log entry 2). -/
def Obligations.RunningCoreAlwaysSteps : Prop :=
  ∀ s : State, s.running = true → ∃ t, step s = .next t

/-- R38: a Halted core has no step, the host can read its state back as it stands, and only the host's reset (alone or
as part of a load) leaves Halted, into a state of R129; every other host action keeps the registers, pc, flags, status
registers and output. That a load ends with reset released is the model's choice (log entry 11). -/
def Obligations.HaltedOnlyLeftByReset : Prop :=
  ∀ s : State, s.running = false →
    (∀ t, step s ≠ .next t) ∧
    (∃ ob, s.readBack = some ob ∧ ob.regs = s.regs ∧ ob.pc = s.pc ∧ ob.flagZ = s.flagZ ∧ ob.flagN = s.flagN ∧
      ob.flagC = s.flagC ∧ ob.flagV = s.flagV ∧ ob.mem = s.mem ∧ ob.haltCause = s.haltCause ∧
      ob.faultSub = s.faultSub ∧ ob.faultPc = s.faultPc ∧ ob.faultWord = s.faultWord ∧
      ob.faultAddr = s.faultAddr ∧ ob.output = s.output) ∧
    (∀ act t, hostAct act s = some t →
      (t.running = true →
        ((∃ p, act = .assertReset p) ∨ (∃ file, act = .loadImage file) ∨ (∃ cells p, act = .loadInReset cells p)) ∧
        ∃ p, ResetTo s t p) ∧
      (t.running = false → SameCore s t))

/-- R117: the ways a step can halt the core, with the cause, the sub-cause and the address each one records. -/
def Obligations.HaltCausesTellTheReason : Prop :=
  ∀ s t : State, step s = .next t → t.running = false →
    (t.haltCause = 1#3 ∧ t.faultSub = 0#3 ∧ t.faultAddr = 0#64 ∧ Runs s .halt) ∨
    (t.haltCause = 2#3 ∧ t.faultSub = 0#3 ∧ t.faultAddr = 0#64 ∧
      ∃ rd rs1 rs2, Runs s (.div rd rs1 rs2) ∧ s.reg rs2 = 0#64) ∨
    (t.haltCause = 3#3 ∧ t.faultAddr = s.pc ∧
      ((s.pc.toNat % 8 ≠ 0 ∧ t.faultSub = 2#3) ∨
       (s.pc.toNat % 8 = 0 ∧ s.config.memBytes < s.pc.toNat + 8 ∧ t.faultSub = 1#3))) ∨
    (t.haltCause = 3#3 ∧ ∃ rd a, Runs s (.load rd a) ∧ a ≠ s.config.inAddr ∧ t.faultAddr = a ∧
      ((a.toNat % 8 ≠ 0 ∧ t.faultSub = 4#3) ∨
       (a.toNat % 8 = 0 ∧ s.config.memBytes < a.toNat + 8 ∧ t.faultSub = 3#3))) ∨
    (t.haltCause = 3#3 ∧ ∃ rs a, Runs s (.store rs a) ∧ a ≠ s.config.outAddr ∧ t.faultAddr = a ∧
      ((a.toNat % 8 ≠ 0 ∧ t.faultSub = 6#3) ∨
       (a.toNat % 8 = 0 ∧ s.config.memBytes < a.toNat + 8 ∧ t.faultSub = 5#3))) ∨
    (t.faultAddr = 0#64 ∧ ∃ w, s.fetch s.pc = .ok w ∧
      ((t.haltCause = 4#3 ∧ t.faultSub = 0#3 ∧ decode w = .error .unknownOpcode) ∨
       (t.haltCause = 5#3 ∧ t.faultSub = 1#3 ∧ decode w = .error .registerField) ∨
       (t.haltCause = 5#3 ∧ t.faultSub = 2#3 ∧ decode w = .error .mustBeZero)))

/-- R118, R119, R120 (and R115 for HALT): the step that halts the core records the fetch PC and the fetched word (0 when
the fetch failed), leaves `pc` advanced (not when the fetch failed), and changes no register, flag, byte of memory or
stream. -/
def Obligations.HaltingStepIsPrecise : Prop :=
  ∀ s t : State, step s = .next t → t.running = false →
    t.faultPc = s.pc ∧ SameRegs s t ∧ SameFlags s t ∧ SameMemory s t ∧ SameStreams s t ∧
    ((∃ w, s.fetch s.pc = .ok w ∧ t.faultWord = w ∧ t.pc = s.pc + 8#64) ∨
     (∃ f, s.fetch s.pc = .error f ∧ t.faultWord = 0#64 ∧ t.pc = s.pc))

/-! ## Register-register instructions -/

/-- R88, R89, R90: ADD, SUB and MUL write the sum, the difference and the low 64 bits of the product to `rd`, and
nothing else but the advanced `pc`. -/
def Obligations.AddSubMulWrapModulo : Prop :=
  ∀ (rd rs1 rs2 : Reg) (s : State),
    (decode (word 0x01 rd rs1 rs2 0) = .ok (.add rd rs1 rs2) ∧
     ∃ t v, exec (.add rd rs1 rs2) s = .next t ∧ Writes s t rd v ∧ SameStreams s t ∧
       v.toNat = ((s.reg rs1).toNat + (s.reg rs2).toNat) % 2 ^ 64) ∧
    (decode (word 0x02 rd rs1 rs2 0) = .ok (.sub rd rs1 rs2) ∧
     ∃ t v, exec (.sub rd rs1 rs2) s = .next t ∧ Writes s t rd v ∧ SameStreams s t ∧
       (v.toNat : Int) = (((s.reg rs1).toNat : Int) - ((s.reg rs2).toNat : Int)) % 2 ^ 64) ∧
    (decode (word 0x03 rd rs1 rs2 0) = .ok (.mul rd rs1 rs2) ∧
     ∃ t v, exec (.mul rd rs1 rs2) s = .next t ∧ Writes s t rd v ∧ SameStreams s t ∧
       v.toNat = ((s.reg rs1).toNat * (s.reg rs2).toNat) % 2 ^ 64)

/-- R91: DIV by 0 halts the core with DivisionByZero and writes no register; else `rd` gets the signed quotient rounded
toward zero, and -2^63 / -1 gives -2^63. -/
def Obligations.DivTruncatesOrFaults : Prop :=
  ∀ (rd rs1 rs2 : Reg) (s : State),
    decode (word 0x04 rd rs1 rs2 0) = .ok (.div rd rs1 rs2) ∧
    (∀ w, s.fetch s.pc = .ok w → s.reg rs2 = 0#64 →
      ∃ t, exec (.div rd rs1 rs2) s = .next t ∧ Halts s t 2#3 0#3 w 0#64 (s.pc + 8#64)) ∧
    (s.reg rs2 ≠ 0#64 →
      ∃ t v, exec (.div rd rs1 rs2) s = .next t ∧ Writes s t rd v ∧ SameStreams s t ∧
        ((s.reg rs1).toInt = -(2 ^ 63) ∧ (s.reg rs2).toInt = -1 → v = 0x8000000000000000#64) ∧
        (¬ ((s.reg rs1).toInt = -(2 ^ 63) ∧ (s.reg rs2).toInt = -1) →
          v.toInt = (s.reg rs1).toInt.tdiv (s.reg rs2).toInt))

/-- R92, R93, R94: AND, OR and XOR write the bitwise result to `rd`, and nothing else but the advanced `pc`. -/
def Obligations.AndOrXorAreBitwise : Prop :=
  ∀ (rd rs1 rs2 : Reg) (s : State),
    (decode (word 0x05 rd rs1 rs2 0) = .ok (.and rd rs1 rs2) ∧
     ∃ t v, exec (.and rd rs1 rs2) s = .next t ∧ Writes s t rd v ∧ SameStreams s t ∧
       ∀ i < 64, v.getLsbD i = ((s.reg rs1).getLsbD i && (s.reg rs2).getLsbD i)) ∧
    (decode (word 0x06 rd rs1 rs2 0) = .ok (.or rd rs1 rs2) ∧
     ∃ t v, exec (.or rd rs1 rs2) s = .next t ∧ Writes s t rd v ∧ SameStreams s t ∧
       ∀ i < 64, v.getLsbD i = ((s.reg rs1).getLsbD i || (s.reg rs2).getLsbD i)) ∧
    (decode (word 0x07 rd rs1 rs2 0) = .ok (.xor rd rs1 rs2) ∧
     ∃ t v, exec (.xor rd rs1 rs2) s = .next t ∧ Writes s t rd v ∧ SameStreams s t ∧
       ∀ i < 64, v.getLsbD i = ((s.reg rs1).getLsbD i ^^ (s.reg rs2).getLsbD i))

/-- R95, R96, R97: SLL, SRL and SRA shift by the amount modulo 64: a product modulo 2^64, a quotient, and a signed
quotient rounded toward minus infinity. -/
def Obligations.ShiftsUseLowSixBits : Prop :=
  ∀ (rd rs1 rs2 : Reg) (s : State),
    (decode (word 0x08 rd rs1 rs2 0) = .ok (.sll rd rs1 rs2) ∧
     ∃ t v, exec (.sll rd rs1 rs2) s = .next t ∧ Writes s t rd v ∧ SameStreams s t ∧
       v.toNat = (s.reg rs1).toNat * 2 ^ ((s.reg rs2).toNat % 64) % 2 ^ 64) ∧
    (decode (word 0x09 rd rs1 rs2 0) = .ok (.srl rd rs1 rs2) ∧
     ∃ t v, exec (.srl rd rs1 rs2) s = .next t ∧ Writes s t rd v ∧ SameStreams s t ∧
       v.toNat = (s.reg rs1).toNat / 2 ^ ((s.reg rs2).toNat % 64)) ∧
    (decode (word 0x0A rd rs1 rs2 0) = .ok (.sra rd rs1 rs2) ∧
     ∃ t v, exec (.sra rd rs1 rs2) s = .next t ∧ Writes s t rd v ∧ SameStreams s t ∧
       v.toInt = (s.reg rs1).toInt / 2 ^ ((s.reg rs2).toNat % 64))

/-- R98: CMP sets Z to equality and N to the signed less-than, and changes nothing else but `pc`; `rd` is not written. -/
def Obligations.CmpSetsZeroAndNegative : Prop :=
  ∀ (rd rs1 rs2 : Reg) (s : State),
    decode (word 0x0B rd rs1 rs2 0) = .ok (.cmp rd rs1 rs2) ∧
    ∃ t, exec (.cmp rd rs1 rs2) s = .next t ∧
      (t.flagZ = true ↔ s.reg rs1 = s.reg rs2) ∧
      (t.flagN = true ↔ (s.reg rs1).toInt < (s.reg rs2).toInt) ∧
      t.flagC = s.flagC ∧ t.flagV = s.flagV ∧ t.pc = s.pc + 8#64 ∧
      SameRegs s t ∧ SameStatus s t ∧ SameMemory s t ∧ SameStreams s t

/-! ## Register-immediate instructions -/

/-- R100, R101: ADDI and SUBI add and subtract the sign-extended immediate modulo 2^64. -/
def Obligations.AddiSubiWrapModulo : Prop :=
  ∀ (rd rs1 : Reg) (s : State),
    (∀ f : BitVec 32, decode (word 0x10 rd rs1 0 f.toNat) = .ok (.addi rd rs1 (f.signExtend 64)) ∧
      decode (word 0x11 rd rs1 0 f.toNat) = .ok (.subi rd rs1 (f.signExtend 64))) ∧
    (∀ imm : Word,
      (∃ t v, exec (.addi rd rs1 imm) s = .next t ∧ Writes s t rd v ∧ SameStreams s t ∧
        v.toNat = ((s.reg rs1).toNat + imm.toNat) % 2 ^ 64) ∧
      (∃ t v, exec (.subi rd rs1 imm) s = .next t ∧ Writes s t rd v ∧ SameStreams s t ∧
        (v.toNat : Int) = (((s.reg rs1).toNat : Int) - (imm.toNat : Int)) % 2 ^ 64))

/-- R102, R103, R104: ANDI, ORI and XORI combine with the sign-extended immediate bit by bit. -/
def Obligations.AndiOriXoriAreBitwise : Prop :=
  ∀ (rd rs1 : Reg) (s : State),
    (∀ f : BitVec 32, decode (word 0x12 rd rs1 0 f.toNat) = .ok (.andi rd rs1 (f.signExtend 64)) ∧
      decode (word 0x13 rd rs1 0 f.toNat) = .ok (.ori rd rs1 (f.signExtend 64)) ∧
      decode (word 0x14 rd rs1 0 f.toNat) = .ok (.xori rd rs1 (f.signExtend 64))) ∧
    (∀ imm : Word,
      (∃ t v, exec (.andi rd rs1 imm) s = .next t ∧ Writes s t rd v ∧ SameStreams s t ∧
        ∀ i < 64, v.getLsbD i = ((s.reg rs1).getLsbD i && imm.getLsbD i)) ∧
      (∃ t v, exec (.ori rd rs1 imm) s = .next t ∧ Writes s t rd v ∧ SameStreams s t ∧
        ∀ i < 64, v.getLsbD i = ((s.reg rs1).getLsbD i || imm.getLsbD i)) ∧
      (∃ t v, exec (.xori rd rs1 imm) s = .next t ∧ Writes s t rd v ∧ SameStreams s t ∧
        ∀ i < 64, v.getLsbD i = ((s.reg rs1).getLsbD i ^^ imm.getLsbD i)))

/-- R105: LI writes the immediate, whose signed value is that of its 32-bit field. -/
def Obligations.LiLoadsSignedImmediate : Prop :=
  ∀ (rd : Reg) (f : BitVec 32) (s : State),
    ∃ imm : Word, imm.toInt = f.toInt ∧ decode (word 0x15 rd 0 0 f.toNat) = .ok (.li rd imm) ∧
      ∃ t, exec (.li rd imm) s = .next t ∧ Writes s t rd imm ∧ SameStreams s t

/-! ## Load and store -/

/-- R41, R107 (the wait is Obligations.InputWaitChangesNothing): a LOAD at IN_ADDR takes the next input value; elsewhere
a misaligned address faults with 4, an aligned one out of range with 3, and else `rd` gets the little-endian word. -/
def Obligations.LoadReadsWordOrInput : Prop :=
  ∀ (rd : Reg) (a : Word) (s : State),
    (∀ f : BitVec 48, decode (wordA 0x20 rd f.toNat) = .ok (.load rd (f.zeroExtend 64))) ∧
    (a = s.config.inAddr → ∀ v vs, s.input = v :: vs →
      ∃ t, exec (.load rd a) s = .next t ∧ Writes s t rd v ∧ t.input = vs ∧ t.output = s.output) ∧
    (a ≠ s.config.inAddr → ∀ w, s.fetch s.pc = .ok w → a.toNat % 8 ≠ 0 →
      ∃ t, exec (.load rd a) s = .next t ∧ Halts s t 3#3 4#3 w a (s.pc + 8#64)) ∧
    (a ≠ s.config.inAddr → ∀ w, s.fetch s.pc = .ok w → a.toNat % 8 = 0 → s.config.memBytes < a.toNat + 8 →
      ∃ t, exec (.load rd a) s = .next t ∧ Halts s t 3#3 3#3 w a (s.pc + 8#64)) ∧
    (a ≠ s.config.inAddr → a.toNat % 8 = 0 → a.toNat + 8 ≤ s.config.memBytes →
      ∃ t v, exec (.load rd a) s = .next t ∧ Writes s t rd v ∧ SameStreams s t ∧
        ∀ i < 8, byteAt v i = (s.readByte (a.toNat + i)).toNat)

/-- R33, R47: a LOAD at IN_ADDR with no value supplied changes nothing, in exec and in the step. That the waiting step
answers the same state is the model's choice (log entry 2). -/
def Obligations.InputWaitChangesNothing : Prop :=
  ∀ (rd : Reg) (s : State), s.input = [] →
    exec (.load rd s.config.inAddr) s = .next s ∧
    (s.running = true → Runs s (.load rd s.config.inAddr) → step s = .next s)

/-- R47, R127, R139: the host's next value ends the wait: the step after it writes that value to `rd`. -/
def Obligations.SuppliedInputEndsWait : Prop :=
  ∀ (rd : Reg) (v : Word) (s : State), s.running = true → s.input = [] → Runs s (.load rd s.config.inAddr) →
    ∃ s' t, hostAct (.supplyInput v) s = some s' ∧ step s' = .next t ∧ Writes s t rd v ∧ SameStreams s t

/-- R42, R48, R108: a STORE at OUT_ADDR appends the register to the output stream and writes no memory; elsewhere a
misaligned address faults with 6, an aligned one out of range with 5, and else the eight bytes at the address get the
register, little-endian, and every byte outside them stays. -/
def Obligations.StoreWritesWordOrOutput : Prop :=
  ∀ (rs : Reg) (a : Word) (s : State),
    (∀ f : BitVec 48, decode (wordA 0x21 rs f.toNat) = .ok (.store rs (f.zeroExtend 64))) ∧
    (a = s.config.outAddr →
      ∃ t, exec (.store rs a) s = .next t ∧ t.output = s.output ++ [s.reg rs] ∧ t.input = s.input ∧
        t.pc = s.pc + 8#64 ∧ SameRegs s t ∧ SameFlags s t ∧ SameStatus s t ∧ SameMemory s t) ∧
    (a ≠ s.config.outAddr → ∀ w, s.fetch s.pc = .ok w → a.toNat % 8 ≠ 0 →
      ∃ t, exec (.store rs a) s = .next t ∧ Halts s t 3#3 6#3 w a (s.pc + 8#64)) ∧
    (a ≠ s.config.outAddr → ∀ w, s.fetch s.pc = .ok w → a.toNat % 8 = 0 → s.config.memBytes < a.toNat + 8 →
      ∃ t, exec (.store rs a) s = .next t ∧ Halts s t 3#3 5#3 w a (s.pc + 8#64)) ∧
    (a ≠ s.config.outAddr → a.toNat % 8 = 0 → a.toNat + 8 ≤ s.config.memBytes → s.mem.wf = true →
      ∃ t, exec (.store rs a) s = .next t ∧
        (∀ i < 8, (t.readByte ((effectiveAddress a).toNat + i)).toNat = byteAt (s.reg rs) i) ∧
        (∀ x, x < (effectiveAddress a).toNat ∨ (effectiveAddress a).toNat + 8 ≤ x → t.readByte x = s.readByte x) ∧
        t.config = s.config ∧ t.pc = s.pc + 8#64 ∧
        SameRegs s t ∧ SameFlags s t ∧ SameStatus s t ∧ SameStreams s t)

/-- R55: after a STORE that reached memory, a LOAD of the same address gives the register stored, and a LOAD of any other
word of memory gives what it gave before. -/
def Obligations.LoadSeesLatestStore : Prop :=
  ∀ (rs rd : Reg) (a b : Word) (s t : State), s.config.Legal → s.mem.wf = true →
    a.toNat % 8 = 0 → a.toNat + 8 ≤ s.config.memBytes → b.toNat % 8 = 0 → b.toNat + 8 ≤ s.config.memBytes →
    exec (.store rs a) s = .next t →
    ∃ u v, exec (.load rd b) t = .next u ∧ exec (.load rd b) s = .next v ∧
      u.reg rd = if b = a then s.reg rs else v.reg rd

/-- R56: the step of a STORE into memory leaves a state in which the next fetch from that address reads the word stored,
whatever stood there before. -/
def Obligations.StoreSeenByNextFetch : Prop :=
  ∀ (rs : Reg) (a : Word) (s : State), s.running = true → s.config.Legal → s.mem.wf = true →
    a.toNat % 8 = 0 → a.toNat + 8 ≤ s.config.memBytes → Runs s (.store rs a) →
    ∃ t, step s = .next t ∧ t.fetch a = .ok (s.reg rs)

/-- R49: with legal parameters a STORE to IN_ADDR, a LOAD from OUT_ADDR and a fetch from either are ordinary accesses and
are out of range. -/
def Obligations.DeviceAddressesAreNotMemory : Prop :=
  ∀ (r : Reg) (s : State) (w : Word), s.config.Legal → s.fetch s.pc = .ok w →
    (∃ t, exec (.store r s.config.inAddr) s = .next t ∧
      Halts s t 3#3 5#3 w s.config.inAddr (s.pc + 8#64)) ∧
    (∃ t, exec (.load r s.config.outAddr) s = .next t ∧
      Halts s t 3#3 3#3 w s.config.outAddr (s.pc + 8#64)) ∧
    s.fetch s.config.inAddr = .error (.memoryFault .fetch .outOfRange s.config.inAddr) ∧
    s.fetch s.config.outAddr = .error (.memoryFault .fetch .outOfRange s.config.outAddr)

/-! ## Control flow and HALT -/

/-- R110, R111: JMP sets `pc` to its address operand, JR to its register, and nothing else changes. -/
def Obligations.JumpsSetPc : Prop :=
  ∀ (rs1 : Reg) (s : State),
    (∀ f : BitVec 48, decode (wordA 0x30 0 f.toNat) = .ok (.jmp (f.zeroExtend 64))) ∧
    (∀ a : Word, ∃ t, exec (.jmp a) s = .next t ∧ Jumps s t a) ∧
    decode (word 0x31 0 rs1 0 0) = .ok (.jr rs1) ∧
    (∃ t, exec (.jr rs1) s = .next t ∧ Jumps s t (s.reg rs1))

/-- R112, R113: BEQ branches when the registers are equal and BNE when they differ, to fetch PC + 8 + offset modulo 2^64;
else both fall through to fetch PC + 8; nothing but `pc` changes. -/
def Obligations.BranchesCompareRegisters : Prop :=
  ∀ (rs1 rs2 : Reg) (s : State),
    (∀ f : BitVec 32, decode (word 0x32 0 rs1 rs2 f.toNat) = .ok (.beq rs1 rs2 (f.signExtend 64)) ∧
      decode (word 0x33 0 rs1 rs2 f.toNat) = .ok (.bne rs1 rs2 (f.signExtend 64))) ∧
    (∀ off : Word,
      (∃ t target, exec (.beq rs1 rs2 off) s = .next t ∧ Jumps s t target ∧
        (target.toNat : Int) =
          (if s.reg rs1 = s.reg rs2 then (s.pc.toNat : Int) + 8 + off.toInt else (s.pc.toNat : Int) + 8) % 2 ^ 64) ∧
      (∃ t target, exec (.bne rs1 rs2 off) s = .next t ∧ Jumps s t target ∧
        (target.toNat : Int) =
          (if s.reg rs1 = s.reg rs2 then (s.pc.toNat : Int) + 8 else (s.pc.toNat : Int) + 8 + off.toInt) % 2 ^ 64))

/-- R109: a target that is misaligned or outside memory is accepted by the transfer, and the next step faults with
FAULT_PC and FAULT_ADDR equal to the target. Stated for JR, which can name every target. -/
def Obligations.BadTargetFaultsAtNextFetch : Prop :=
  ∀ (rs1 : Reg) (s : State), s.running = true → Runs s (.jr rs1) →
    ((s.reg rs1).toNat % 8 ≠ 0 ∨ s.config.memBytes < (s.reg rs1).toNat + 8) →
    ∃ t u, step s = .next t ∧ t.running = true ∧ t.pc = s.reg rs1 ∧ step t = .next u ∧
      u.running = false ∧ u.haltCause = 3#3 ∧ u.faultPc = s.reg rs1 ∧ u.faultAddr = s.reg rs1 ∧
      u.faultWord = 0#64 ∧ u.pc = s.reg rs1 ∧
      u.faultSub = if (s.reg rs1).toNat % 8 ≠ 0 then 2#3 else 1#3

/-- R115: HALT halts the core with cause 1 and nothing else changes but `pc`, which is advanced; the word recorded is
the HALT word. -/
def Obligations.HaltStopsTheCore : Prop :=
  decode 0xF000000000000000#64 = .ok .halt ∧
  (∀ w : Word, decode w = .ok .halt → w = 0xF000000000000000#64) ∧
  (∀ s : State, ∃ t w, exec .halt s = .next t ∧ Halts s t 1#3 0#3 w 0#64 (s.pc + 8#64) ∧
    ∀ w', s.fetch s.pc = .ok w' → w = w')

/-! ## What a step can change -/

/-- R18: a step changes no general register but the `rd` of the instruction it runs; CMP, STORE, the control-flow
instructions, HALT and a step that halts the core change none. -/
def Obligations.OnlyDestinationRegisterChanges : Prop :=
  ∀ (s t : State) (q : Reg), step s = .next t → t.reg q ≠ s.reg q →
    t.running = true ∧ ∃ i, Runs s i ∧ destOf i = some q

/-- R23, R24: a step that runs CMP sets Z and N by equality and the signed less-than, and no other step changes them;
C and V are 0 at reset and no step writes them. -/
def Obligations.FlagsWrittenOnlyByCmp : Prop :=
  State.reset.flagC = false ∧ State.reset.flagV = false ∧
  ∀ s t : State, step s = .next t →
    t.flagC = s.flagC ∧ t.flagV = s.flagV ∧
    (∀ rd rs1 rs2, Runs s (.cmp rd rs1 rs2) →
      (t.flagZ = true ↔ s.reg rs1 = s.reg rs2) ∧ (t.flagN = true ↔ (s.reg rs1).toInt < (s.reg rs2).toInt)) ∧
    ((∀ rd rs1 rs2, ¬ Runs s (.cmp rd rs1 rs2)) → t.flagZ = s.flagZ ∧ t.flagN = s.flagN)

/-- R25, R26: the run state and HALT_CAUSE are 1 and 0 at reset; a step leaves all six status registers alone unless it
halts the core, and then HALT_CAUSE is one of 1 to 5; and no step follows. -/
def Obligations.StatusWrittenOnceWhenHalting : Prop :=
  State.reset.running = true ∧ State.reset.haltCause = 0#3 ∧
  ∀ s t : State, step s = .next t →
    s.running = true ∧ (t.running = true → SameStatus s t) ∧
    (t.running = false →
      (t.haltCause = 1#3 ∨ t.haltCause = 2#3 ∨ t.haltCause = 3#3 ∨ t.haltCause = 4#3 ∨ t.haltCause = 5#3) ∧
      ∀ u, step t ≠ .next u)

/-- R32, R42: a byte of memory changes only in the step of a STORE to memory whose eight bytes hold it; the capacity and
the device addresses never change. -/
def Obligations.MemoryChangesOnlyByStore : Prop :=
  ∀ s t : State, step s = .next t →
    t.config = s.config ∧
    ∀ x, t.readByte x ≠ s.readByte x →
      ∃ rs a, Runs s (.store rs a) ∧ a ≠ s.config.outAddr ∧ a.toNat ≤ x ∧ x < a.toNat + 8 ∧
        a.toNat + 8 ≤ s.config.memBytes

/-- R34, R52: a step adds to the output stream only the register a STORE at OUT_ADDR stores, at its end, and takes from
the input stream only the first value, for a LOAD at IN_ADDR. -/
def Obligations.StreamsMoveOnlyByDeviceAccess : Prop :=
  ∀ s t : State, step s = .next t →
    (t.output = s.output ∨
      ∃ rs, Runs s (.store rs s.config.outAddr) ∧ t.output = s.output ++ [s.reg rs]) ∧
    (t.input = s.input ∨
      ∃ rd v, Runs s (.load rd s.config.inAddr) ∧ s.input = v :: t.input ∧ t.reg rd = v)

/-! ## Invariants -/

/-- Every step keeps the invariant: legal parameters, memory in canonical form and in range, C and V zero, status
registers at their reset values while Running, and in Halted a record that the rules can write. -/
def Obligations.StepKeepsInvariant : Prop :=
  ∀ s t : State, s.Inv → step s = .next t → t.Inv

/-- The state right after reset meets the invariant. -/
def Obligations.ResetMeetsInvariant : Prop := State.reset.Inv

/-- Every host action that has a move keeps the invariant (R39, R139). -/
def Obligations.HostActionsKeepInvariant : Prop :=
  ∀ (act : HostAction) (s t : State), s.Inv → hostAct act s = some t → t.Inv

/-! ## Reset, loading and the host -/

/-- R17: every general register, R0 among them, is 0 at reset and reads the value last written to it. -/
def Obligations.NoRegisterIsHardwired : Prop :=
  ∀ (s : State) (r q : Reg) (v : Word),
    State.reset.reg r = 0#64 ∧ (s.setReg r v).reg q = if q = r then v else s.reg q

/-- R129: the reset value of every piece of state, from whatever state reset is asserted in. -/
def Obligations.ResetSetsEveryField : Prop :=
  ∀ (s : State) (resetPc : Word), ∃ t, hostAct (.assertReset resetPc) s = some t ∧
    ResetTo s t resetPc ∧ t.mem = s.mem

/-- R130, R133, R134 (2): after a load every register, flag and status register is at its reset value, the output stream
is empty and the input stream is as it was; the entry point of the loaded image is the reset PC, and reset does not check
it: a bad one faults at the first fetch. -/
def Obligations.EntryPointCheckedAtFirstFetch : Prop :=
  ∀ (s : State) (img : Image),
    ResetTo s (s.boot img) img.entryPoint ∧
    (img.entryPoint.toNat % 8 ≠ 0 →
      ∃ t, step (s.boot img) = .next t ∧ Halts (s.boot img) t 3#3 2#3 0#64 img.entryPoint img.entryPoint) ∧
    (img.entryPoint.toNat % 8 = 0 → s.config.memBytes < img.entryPoint.toNat + 8 →
      ∃ t, step (s.boot img) = .next t ∧ Halts (s.boot img) t 3#3 1#3 0#64 img.entryPoint img.entryPoint)

/-- R131: after the load, memory holds the code from 0, the data after it and 0 elsewhere; and a later reset changes
no byte of memory. -/
def Obligations.ImagePlacedInMemory : Prop :=
  ∀ (s : State) (img : Image),
    (∀ i (h : i < img.code.length), (s.boot img).readByte i = img.code[i]) ∧
    (∀ i (h : i < img.data.length), (s.boot img).readByte (img.code.length + i) = img.data[i]) ∧
    (∀ x, img.code.length + img.data.length ≤ x → (s.boot img).readByte x = 0#8) ∧
    (∀ (p : Word) (x : Nat), (s.assertReset p).readByte x = s.readByte x)

/-- R132: an image file with the packed header is read field by field; a wrong magic or version, sizes too large for
memory, or a file shorter than the header says, is refused, and then the core is not started. -/
def Obligations.ImageHeaderParsedOrRefused : Prop :=
  ∀ (magic magic' : BitVec 32) (version version' : BitVec 16) (codeSize dataSize entry : Word) (memBytes : Nat)
    (body file : List Byte) (s : State),
    hostAct (.loadImage file) s =
      (parseImage Config.imageMagic Config.imageVersion s.config.memBytes file).map s.boot ∧
    (magic' ≠ magic → parseImage magic version memBytes
      (imageFile magic'.toNat version.toNat codeSize.toNat dataSize.toNat entry.toNat body) = none) ∧
    (version' ≠ version → parseImage magic version memBytes
      (imageFile magic.toNat version'.toNat codeSize.toNat dataSize.toNat entry.toNat body) = none) ∧
    (memBytes < codeSize.toNat + dataSize.toNat → parseImage magic version memBytes
      (imageFile magic.toNat version.toNat codeSize.toNat dataSize.toNat entry.toNat body) = none) ∧
    (body.length < codeSize.toNat + dataSize.toNat → parseImage magic version memBytes
      (imageFile magic.toNat version.toNat codeSize.toNat dataSize.toNat entry.toNat body) = none) ∧
    (file.length < 30 → parseImage magic version memBytes file = none) ∧
    (codeSize.toNat + dataSize.toNat ≤ memBytes → body.length = codeSize.toNat + dataSize.toNat →
      parseImage magic version memBytes
        (imageFile magic.toNat version.toNat codeSize.toNat dataSize.toNat entry.toNat body) =
        some { entryPoint := entry, code := body.take codeSize.toNat, data := body.drop codeSize.toNat })

/-- An image file longer than its header says is accepted, and the bytes after the data are not read. R132 does not list
such a file among those refused; that it is accepted is the model's choice (log entry 10). -/
def Obligations.LongerImageFileAccepted : Prop :=
  ∀ (magic : BitVec 32) (version : BitVec 16) (codeSize dataSize entry : Word) (memBytes : Nat) (body rest : List Byte),
    codeSize.toNat + dataSize.toNat ≤ memBytes → body.length = codeSize.toNat + dataSize.toNat →
      parseImage magic version memBytes
        (imageFile magic.toNat version.toNat codeSize.toNat dataSize.toNat entry.toNat (body ++ rest)) =
        some { entryPoint := entry, code := body.take codeSize.toNat, data := body.drop codeSize.toNat }

/-- R38, R39, R139: while the core is Running the host can neither write memory through the loader port nor read back; in
Halted, or with the core held in reset, a loader byte inside memory is written, and it alone changes: in Halted everything
else of the machine stays, in reset the core is at its reset values. Outside memory the loader has no move, and the action
in reset ends with reset released: the model's choices (log entry 11). -/
def Obligations.LoaderPortOnlyWhenHalted : Prop :=
  ∀ (s : State) (a : Nat) (b : Byte),
    (s.running = true → hostAct (.loadByte a b) s = none ∧ s.readBack = none) ∧
    (s.running = false → a < s.config.memBytes → s.mem.wf = true →
      ∃ t, hostAct (.loadByte a b) s = some t ∧ t.readByte a = b ∧ (∀ x, x ≠ a → t.readByte x = s.readByte x) ∧
        SameCore s t ∧ SameStreams s t) ∧
    (a < s.config.memBytes → s.mem.wf = true → ∀ p,
      ∃ t, hostAct (.loadInReset [(a, b)] p) s = some t ∧ ResetTo s t p ∧ t.readByte a = b ∧
        ∀ x, x ≠ a → t.readByte x = s.readByte x) ∧
    (s.config.memBytes ≤ a → hostAct (.loadByte a b) s = none ∧ ∀ p, hostAct (.loadInReset [(a, b)] p) s = none)

/-- R129, R139: whatever bytes the loader writes with the core held in reset, the later ones over the earlier, the core is
at its reset values when it starts. That reset is released at the end of the action is the model's choice (log entry 11). -/
def Obligations.LoadInResetWritesCells : Prop :=
  ∀ (s : State) (cells : List Host.Cell) (p : Word),
    (∀ c ∈ cells, c.1 < s.config.memBytes) → s.mem.wf = true →
    ∃ t, hostAct (.loadInReset cells p) s = some t ∧ ResetTo s t p ∧
      (∀ x, (∀ c ∈ cells, c.1 ≠ x) → t.readByte x = s.readByte x) ∧
      (∀ before after x v, cells = before ++ (x, v) :: after → (∀ c ∈ after, c.1 ≠ x) → t.readByte x = v)

/-- R34, R127, R139: supplying an input value, at any time, appends it to the input stream and changes nothing else. -/
def Obligations.SupplyingInputOnlyAppends : Prop :=
  ∀ (s : State) (v : Word), ∃ t, hostAct (.supplyInput v) s = some t ∧
    t.input = s.input ++ [v] ∧ SameCore s t ∧ SameMemory s t

/-! ## The assembler's words and the linker's patch -/

/-- R79, R80: whatever the assembler makes of an instruction line is an instruction with an encoding, and decoding its
word gives that instruction. -/
def Obligations.AssembledLinesDecode : Prop :=
  ∀ (labels : LabelTable) (here : Nat) (m : List Char) (ops : List (List Char)) (i : Instr)
    (symbol : Option (List Char)),
    assembleInstr labels here m ops = .ok (i, symbol) → i.wellFormed = true ∧ decode (encode i) = .ok i

/-- R80: the word of every line. Whatever registers, immediate, address or offset the operand tokens name, the line of each
mnemonic makes the instruction of that mnemonic with those operands, in the order of R80, and the word of R80. -/
def Obligations.LinesMakeTheirWords : Prop :=
  ∀ (labels : LabelTable) (here : Nat) (x y z : List Char) (a b : Reg),
    readRegister x = .ok a → readRegister y = .ok b →
    (∀ c, readRegister z = .ok c →
      LineMakes labels here "ADD" [x, y, z] (.add a b c) none (word 0x01 a b c 0) ∧
      LineMakes labels here "SUB" [x, y, z] (.sub a b c) none (word 0x02 a b c 0) ∧
      LineMakes labels here "MUL" [x, y, z] (.mul a b c) none (word 0x03 a b c 0) ∧
      LineMakes labels here "DIV" [x, y, z] (.div a b c) none (word 0x04 a b c 0) ∧
      LineMakes labels here "AND" [x, y, z] (.and a b c) none (word 0x05 a b c 0) ∧
      LineMakes labels here "OR" [x, y, z] (.or a b c) none (word 0x06 a b c 0) ∧
      LineMakes labels here "XOR" [x, y, z] (.xor a b c) none (word 0x07 a b c 0) ∧
      LineMakes labels here "SLL" [x, y, z] (.sll a b c) none (word 0x08 a b c 0) ∧
      LineMakes labels here "SRL" [x, y, z] (.srl a b c) none (word 0x09 a b c 0) ∧
      LineMakes labels here "SRA" [x, y, z] (.sra a b c) none (word 0x0A a b c 0) ∧
      LineMakes labels here "CMP" [x, y, z] (.cmp a b c) none (word 0x0B a b c 0)) ∧
    (∀ v, readImmediate z = .ok v →
      LineMakes labels here "ADDI" [x, y, z] (.addi a b v) none (word 0x10 a b 0 (v.toNat % 2 ^ 32)) ∧
      LineMakes labels here "SUBI" [x, y, z] (.subi a b v) none (word 0x11 a b 0 (v.toNat % 2 ^ 32)) ∧
      LineMakes labels here "ANDI" [x, y, z] (.andi a b v) none (word 0x12 a b 0 (v.toNat % 2 ^ 32)) ∧
      LineMakes labels here "ORI" [x, y, z] (.ori a b v) none (word 0x13 a b 0 (v.toNat % 2 ^ 32)) ∧
      LineMakes labels here "XORI" [x, y, z] (.xori a b v) none (word 0x14 a b 0 (v.toNat % 2 ^ 32)) ∧
      LineMakes labels here "LI" [x, z] (.li a v) none (word 0x15 a 0 0 (v.toNat % 2 ^ 32))) ∧
    (∀ v symbol, readAddress labels z = .ok (v, symbol) →
      LineMakes labels here "LOAD" [x, z] (.load a v) symbol (wordA 0x20 a (v.toNat % 2 ^ 48)) ∧
      LineMakes labels here "STORE" [x, z] (.store a v) symbol (wordA 0x21 a (v.toNat % 2 ^ 48)) ∧
      LineMakes labels here "JMP" [z] (.jmp v) symbol (wordA 0x30 0 (v.toNat % 2 ^ 48))) ∧
    (∀ v, readOffset labels here z = .ok v →
      LineMakes labels here "BEQ" [x, y, z] (.beq a b v) none (word 0x32 0 a b (v.toNat % 2 ^ 32)) ∧
      LineMakes labels here "BNE" [x, y, z] (.bne a b v) none (word 0x33 0 a b (v.toNat % 2 ^ 32))) ∧
    LineMakes labels here "JR" [x] (.jr a) none (word 0x31 0 a 0 0) ∧
    LineMakes labels here "HALT" [] .halt none (word 0xF0 0 0 0 0)

/-- R78, R79: what a register token and a decimal literal name, and which are InvalidOperand for their value. That a
literal may have leading zeros is the model's choice (log entry 15). -/
def Obligations.LiteralsAreDecimal : Prop :=
  ∀ (ds : List (Fin 10)), ds ≠ [] →
    ((∃ r : Reg, r.val = decimalValue ds ∧ readRegister ('R' :: digitToken ds) = .ok r) ∨
      (32 ≤ decimalValue ds ∧ readRegister ('R' :: digitToken ds) = .error .invalidOperand)) ∧
    (decimalValue ds < 2 ^ 31 → ∃ w, readImmediate (digitToken ds) = .ok w ∧ w.toInt = decimalValue ds) ∧
    (2 ^ 31 ≤ decimalValue ds → readImmediate (digitToken ds) = .error .invalidOperand) ∧
    (decimalValue ds ≤ 2 ^ 31 → ∃ w, readImmediate ('-' :: digitToken ds) = .ok w ∧ w.toInt = -decimalValue ds) ∧
    (2 ^ 31 < decimalValue ds → readImmediate ('-' :: digitToken ds) = .error .invalidOperand) ∧
    (∀ labels here, readOffset labels here (digitToken ds) = readImmediate (digitToken ds) ∧
      readOffset labels here ('-' :: digitToken ds) = readImmediate ('-' :: digitToken ds)) ∧
    (decimalValue ds < 2 ^ 48 → ∀ labels, ∃ w, readAddress labels (digitToken ds) = .ok (w, none) ∧
      w.toNat = decimalValue ds) ∧
    (2 ^ 48 ≤ decimalValue ds → ∀ labels, readAddress labels (digitToken ds) = .error .invalidOperand)

/-- R82: every error of every line is reported with its line, and the unit then has no output: each unrecognized
character, each syntax error, a label declared before, an unknown mnemonic, and all errors of the operands. Lines count
from 1 in a report, a label declared twice is reported where it is declared again, and how the scanning goes on inside a
line: these are the model's choices (log entry 15). -/
def Obligations.EveryAssemblyErrorReported : Prop :=
  ∀ (lines : List (List Char)) (n : Nat) (h : n < lines.length),
    ((stripComment lines[n]).any (fun c => !isSourceChar c) = true → Reported lines n .lexicalError) ∧
    (∀ k ∈ (readLine lines[n]).errors, Reported lines n k) ∧
    (∀ (j : Nat) (hj : j < n) (name : List Char), (readLine lines[j]).label = some name →
      (readLine lines[n]).label = some name → Reported lines n .duplicateLabel) ∧
    (∀ m ops, (readLine lines[n]).instruction = some (m, ops) →
      ((∀ e ∈ mnemonics, e.1.toList ≠ m) → Reported lines n .unknownMnemonic) ∧
      (∀ es, assembleInstr (labelsFrom 0 (lines.map readLine)) (addressOf lines n) m ops = .error es →
        es ≠ [] ∧ ∀ k ∈ es, Reported lines n k))

/-- R78, R82: on a line of any mnemonic that takes a register, every token in a register place that names no register is
reported as InvalidOperand with the line, whatever else the line and the unit hold. Lines count from 1 in a report: the
model's choice (log entry 15). -/
def Obligations.EveryBadRegisterReported : Prop :=
  ∀ (lines : List (List Char)) (n : Nat) (h : n < lines.length) (m : String) (ops : List (List Char)) (k : Nat)
    (t : List Char),
    (readLine lines[n]).instruction = some (m.toList, ops) → k < registerPlaces m → ops[k]? = some t →
    (∀ r, readRegister t ≠ .ok r) → Reported lines n .invalidOperand

/-- R78, R82: a register-register line of three operands with a register that does not read makes no instruction, and
exactly one InvalidOperand for each such operand. That it is one each is the model's choice (log entry 15). -/
def Obligations.RegisterLineErrorsCounted : Prop :=
  ∀ (labels : LabelTable) (here : Nat) (ops : List (List Char)), ops.length = 3 →
    ∀ m ∈ ["ADD", "SUB", "MUL", "DIV", "AND", "OR", "XOR", "SLL", "SRL", "SRA", "CMP"],
      ops.any (fun t => (readRegister t).toOption.isNone) = true →
      ∃ es, assembleInstr labels here m.toList ops = .error es ∧
        es = List.replicate (ops.countP fun t => (readRegister t).toOption.isNone) .invalidOperand

/-- R81: the offset the assembler makes of a label of the unit takes a branch at that place to the label's address. -/
def Obligations.BranchReachesItsLabel : Prop :=
  ∀ (labels : LabelTable) (here a : Nat) (name : List Char) (off : Word) (r : Reg) (s : State),
    isIdentifier name = true → labels.find name = some a → a < 2 ^ 64 → readOffset labels here name = .ok off →
    s.pc = BitVec.ofNat 64 here →
    ∃ t, exec (.beq r r off) s = .next t ∧ t.pc = BitVec.ofNat 64 a

/-- R84: the patch of an instruction word keeps w[63:48] and sets w[47:0] to the resolved address, which is refused from
2^48 on; the patch of a data word sets its eight bytes, little-endian, and keeps every other byte. -/
def Obligations.PatchSetsAddressField : Prop :=
  (∀ (w : Word) (resolved : Nat),
    (resolved < 2 ^ 48 → ∃ w', patchInstruction w resolved = some w' ∧
      w'.toNat = w.toNat / 2 ^ 48 * 2 ^ 48 + resolved) ∧
    (2 ^ 48 ≤ resolved → patchInstruction w resolved = none)) ∧
  (∀ (data : List Byte) (offset : Nat) (resolved : Word), offset + 8 ≤ data.length →
    (patchData data offset resolved).length = data.length ∧
    (∀ i < 8, ∃ b, (patchData data offset resolved)[offset + i]? = some b ∧ b.toNat = byteAt resolved i) ∧
    (∀ x, x < offset ∨ offset + 8 ≤ x → (patchData data offset resolved)[x]? = data[x]?))
end

