-- ==== Sys2Proof/Laws/Assembler.lean ====
section
/-! SUPPORT. What the assembler's shared operations can do, said once: when they give a value, and that a rejected line
always carries an error. -/

namespace Sys2Proof.Machine

open Sys2Proof

/-- A value comes only of a function and an argument without errors. -/
theorem applyChecked_ok {α β : Type} {f : Checked (α → β)} {x : Checked α} {b : β} :
    applyChecked f x = .ok b ↔ ∃ g a, f = .ok g ∧ x = .ok a ∧ b = g a := by
  cases f <;> cases x <;> simp [applyChecked, eq_comm]

/-- Errors are never lost: the result has none only where both sides have none. -/
theorem applyChecked_ne_nil {α β : Type} {f : Checked (α → β)} {x : Checked α}
    (hf : f ≠ .error []) (hx : x ≠ .error []) : applyChecked f x ≠ .error [] := by
  cases f <;> cases x <;> simp_all [applyChecked]

/-- An error of the function is an error of the result. -/
theorem applyChecked_error_left {α β : Type} {f : Checked (α → β)} {x : Checked α} {e : AsmErrorKind}
    (h : ∃ es, f = .error es ∧ e ∈ es) : ∃ es, applyChecked f x = .error es ∧ e ∈ es := by
  obtain ⟨es, rfl, he⟩ := h
  cases x <;> simp [applyChecked, he]

/-- An error of the argument is an error of the result. -/
theorem applyChecked_error_right {α β : Type} {f : Checked (α → β)} {x : Checked α} {e : AsmErrorKind}
    (h : ∃ es, x = .error es ∧ e ∈ es) : ∃ es, applyChecked f x = .error es ∧ e ∈ es := by
  obtain ⟨es, rfl, he⟩ := h
  cases f <;> simp [applyChecked, he]

/-- An operand has a value when its token is there and reads as that value. -/
theorem operandAt_ok {α : Type} {read : List Char → Except AsmErrorKind α} {ops : List (List Char)} {k : Nat} {v : α} :
    operandAt read ops k = .ok v ↔ ∃ t, ops[k]? = some t ∧ read t = .ok v := by
  unfold operandAt
  cases h : ops[k]? with
  | none => simp
  | some t => cases hr : read t <;> simp [hr]

theorem operandAt_ne_nil {α : Type} (read : List Char → Except AsmErrorKind α) (ops : List (List Char)) (k : Nat) :
    operandAt read ops k ≠ .error [] := by
  unfold operandAt
  cases h : ops[k]? with
  | none => simp
  | some t => cases hr : read t <;> simp [hr]

/-- A line has a value when its operands have one and it has no token too many. -/
theorem withArity_ok {α : Type} {n : Nat} {ops : List (List Char)} {x : Checked α} {v : α} :
    withArity n ops x = .ok v ↔ ops.length ≤ n ∧ x = .ok v := by
  unfold withArity
  split_ifs with h <;> cases x <;> simp [applyChecked, h]

/-- The errors of the operands are errors of the line. -/
theorem withArity_error {α : Type} {n : Nat} {ops : List (List Char)} {x : Checked α} {e : AsmErrorKind}
    (h : ∃ es, x = .error es ∧ e ∈ es) : ∃ es, withArity n ops x = .error es ∧ e ∈ es :=
  applyChecked_error_left (applyChecked_error_right h)

theorem withArity_ne_nil {α : Type} {n : Nat} {ops : List (List Char)} {x : Checked α} (h : x ≠ .error []) :
    withArity n ops x ≠ .error [] := by
  unfold withArity
  split_ifs <;> cases x <;> simp_all [applyChecked]

/-- A line that makes no instruction has at least one error (R82). -/
theorem assembleInstr_ne_nil (labels : LabelTable) (here : Nat) (m : List Char) (ops : List (List Char)) :
    assembleInstr labels here m ops ≠ .error [] := by
  unfold assembleInstr
  split
  · simp
  · rename_i t _
    cases t <;>
      exact withArity_ne_nil (by
        repeat' first
          | exact operandAt_ne_nil _ _ _
          | apply applyChecked_ne_nil
          | simp)

end Sys2Proof.Machine
end

