-- ==== Sys2Proof/Laws/Decode.lean ====
section
/-! SUPPORT. The fields of the words the encoder writes, the must-be-zero masks as runs of bits, and the two checks of
the decoder (spec/30_encoding.md R58 to R66, R72, R73). -/

namespace Sys2Proof

/-! ### The must-be-zero masks (R59 to R66) -/

/-- A mask that is one run of `n` bits from bit `k` picks nothing exactly when that field is 0. -/
theorem and_run_eq_zero {w mask : Word} {k n : Nat} (hk : k + n ≤ 64)
    (hm : ∀ i < 64, mask.getLsbD i = (decide (k ≤ i) && decide (i < k + n))) :
    w &&& mask = 0#64 ↔ w.extractLsb' k n = 0#n := by
  constructor
  · intro h
    apply BitVec.eq_of_getLsbD_eq
    intro i hi
    have hb : (w &&& mask).getLsbD (k + i) = false := by simp [h]
    rw [BitVec.getLsbD_and, hm _ (by omega)] at hb
    have h1 : k ≤ k + i := by omega
    have h2 : k + i < k + n := by omega
    simp only [h1, h2, decide_true, Bool.and_true] at hb
    simp [hi, hb]
  · intro h
    apply BitVec.eq_of_getLsbD_eq
    intro i hi
    rw [BitVec.getLsbD_and, hm i hi]
    by_cases h1 : k ≤ i ∧ i < k + n
    · have hb : (w.extractLsb' k n).getLsbD (i - k) = false := by simp [h]
      simp only [BitVec.getLsbD_extractLsb', show i - k < n by omega, show k + (i - k) = i by omega,
        decide_true, Bool.true_and] at hb
      simp [hb]
    · by_cases h2 : k ≤ i
      · simp [show ¬ i < k + n by omega]
      · simp [h2]

theorem mbzR_zero {w : Word} : w &&& mbzR = 0#64 ↔ w.extractLsb' 0 32 = 0#32 :=
  and_run_eq_zero (by decide) (by decide)

theorem mbzI_zero {w : Word} : w &&& mbzI = 0#64 ↔ w.extractLsb' 32 8 = 0#8 :=
  and_run_eq_zero (by decide) (by decide)

theorem mbzL_zero {w : Word} : w &&& mbzL = 0#64 ↔ w.extractLsb' 32 16 = 0#16 :=
  and_run_eq_zero (by decide) (by decide)

theorem mbzM_zero {w : Word} : w &&& mbzM = 0#64 := by simp [mbzM]

theorem mbzJ_zero {w : Word} : w &&& mbzJ = 0#64 ↔ w.extractLsb' 48 8 = 0#8 :=
  and_run_eq_zero (by decide) (by decide)

theorem mbzB_zero {w : Word} : w &&& mbzB = 0#64 ↔ w.extractLsb' 48 8 = 0#8 :=
  and_run_eq_zero (by decide) (by decide)

theorem mbzS_zero {w : Word} : w &&& mbzS = 0#64 ↔ w.extractLsb' 0 56 = 0#56 :=
  and_run_eq_zero (by decide) (by decide)

/-- The mask of format X is two runs of bits. -/
theorem mbzX_zero {w : Word} :
    w &&& mbzX = 0#64 ↔ w.extractLsb' 48 8 = 0#8 ∧ w.extractLsb' 0 40 = 0#40 := by
  have hx : mbzX = 0x00FF000000000000#64 ||| 0x000000FFFFFFFFFF#64 := by decide
  have h1 : w &&& 0x00FF000000000000#64 = 0#64 ↔ w.extractLsb' 48 8 = 0#8 :=
    and_run_eq_zero (by decide) (by decide)
  have h2 : w &&& 0x000000FFFFFFFFFF#64 = 0#64 ↔ w.extractLsb' 0 40 = 0#40 :=
    and_run_eq_zero (by decide) (by decide)
  rw [← h1, ← h2, hx]
  constructor
  · intro h
    have hb : ∀ i < 64, (w &&& (0x00FF000000000000#64 ||| 0x000000FFFFFFFFFF#64)).getLsbD i = false := by
      intro i _
      rw [h]
      simp
    constructor <;>
      (apply BitVec.eq_of_getLsbD_eq
       intro i hi
       have := hb i hi
       simp only [BitVec.getLsbD_and, BitVec.getLsbD_or, BitVec.getLsbD_zero] at this ⊢
       revert this
       cases w.getLsbD i <;> simp +contextual)
  · rintro ⟨ha, hb⟩
    rw [show w &&& (0x00FF000000000000#64 ||| 0x000000FFFFFFFFFF#64)
      = (w &&& 0x00FF000000000000#64) ||| (w &&& 0x000000FFFFFFFFFF#64) from ?_, ha, hb]
    · simp
    · apply BitVec.eq_of_getLsbD_eq
      intro i hi
      simp only [BitVec.getLsbD_and, BitVec.getLsbD_or]
      cases w.getLsbD i <;> simp

/-! ### The two checks (R72, R73) -/

theorem regOfField_ok {f : BitVec 8} {r : Reg} : regOfField f = .ok r ↔ f.toNat = r.val := by
  unfold regOfField
  split_ifs with h
  · simp [Fin.ext_iff]
  · have := r.isLt
    simp
    omega

theorem regOfField_error {f : BitVec 8} {e : DecodeError} :
    regOfField f = .error e ↔ 32 ≤ f.toNat ∧ e = .registerField := by
  unfold regOfField
  split_ifs with h
  · simp
    omega
  · simp [eq_comm]
    omega

/-- A register's field names the register (R58, R72). -/
@[simp] theorem regOfField_fieldOfReg (r : Reg) : regOfField (fieldOfReg r) = .ok r := by
  rw [regOfField_ok]
  have := r.isLt
  simp [fieldOfReg]
  omega

theorem checkMbz_ok {mask w : Word} {i j : Instr} :
    checkMbz mask w i = .ok j ↔ w &&& mask = 0#64 ∧ i = j := by
  unfold checkMbz
  split_ifs with h <;> simp [h]

theorem checkMbz_error {mask w : Word} {i : Instr} {e : DecodeError} :
    checkMbz mask w i = .error e ↔ w &&& mask ≠ 0#64 ∧ e = .mustBeZero := by
  unfold checkMbz
  split_ifs with h <;> simp [h, eq_comm]

/-! ### The fields of the encoder's words (R59 to R66) -/

section
variable (op : BitVec 8) (r a b : Reg) (v : Word)

theorem opField_encodeR : opField (encodeR op r a b) = op := by
  apply BitVec.eq_of_getLsbD_eq; intro i hi
  simp only [opField, encodeR, BitVec.getLsbD_extractLsb', BitVec.getLsbD_append]
  interval_cases i <;> simp

theorem rdField_encodeR : rdField (encodeR op r a b) = fieldOfReg r := by
  apply BitVec.eq_of_getLsbD_eq; intro i hi
  simp only [rdField, encodeR, BitVec.getLsbD_extractLsb', BitVec.getLsbD_append]
  interval_cases i <;> simp

theorem rs1Field_encodeR : rs1Field (encodeR op r a b) = fieldOfReg a := by
  apply BitVec.eq_of_getLsbD_eq; intro i hi
  simp only [rs1Field, encodeR, BitVec.getLsbD_extractLsb', BitVec.getLsbD_append]
  interval_cases i <;> simp

theorem rs2Field_encodeR : rs2Field (encodeR op r a b) = fieldOfReg b := by
  apply BitVec.eq_of_getLsbD_eq; intro i hi
  simp only [rs2Field, encodeR, BitVec.getLsbD_extractLsb', BitVec.getLsbD_append]
  interval_cases i <;> simp

theorem mbz_encodeR : encodeR op r a b &&& mbzR = 0#64 := by
  rw [mbzR_zero]
  apply BitVec.eq_of_getLsbD_eq; intro i hi
  simp only [encodeR, BitVec.getLsbD_extractLsb', BitVec.getLsbD_append]
  simp [hi]

theorem opField_encodeI : opField (encodeI op r a v) = op := by
  apply BitVec.eq_of_getLsbD_eq; intro i hi
  simp only [opField, encodeI, BitVec.getLsbD_extractLsb', BitVec.getLsbD_append]
  interval_cases i <;> simp

theorem rdField_encodeI : rdField (encodeI op r a v) = fieldOfReg r := by
  apply BitVec.eq_of_getLsbD_eq; intro i hi
  simp only [rdField, encodeI, BitVec.getLsbD_extractLsb', BitVec.getLsbD_append]
  interval_cases i <;> simp

theorem rs1Field_encodeI : rs1Field (encodeI op r a v) = fieldOfReg a := by
  apply BitVec.eq_of_getLsbD_eq; intro i hi
  simp only [rs1Field, encodeI, BitVec.getLsbD_extractLsb', BitVec.getLsbD_append]
  interval_cases i <;> simp

theorem imm32Field_encodeI : imm32Field (encodeI op r a v) = imm32OfOperand v := by
  apply BitVec.eq_of_getLsbD_eq; intro i hi
  simp only [imm32Field, encodeI, BitVec.getLsbD_extractLsb', BitVec.getLsbD_append]
  simp [hi]

theorem mbz_encodeI : encodeI op r a v &&& mbzI = 0#64 := by
  rw [mbzI_zero]
  apply BitVec.eq_of_getLsbD_eq; intro i hi
  simp only [encodeI, BitVec.getLsbD_extractLsb', BitVec.getLsbD_append]
  interval_cases i <;> simp

theorem opField_encodeL : opField (encodeL op r v) = op := by
  apply BitVec.eq_of_getLsbD_eq; intro i hi
  simp only [opField, encodeL, BitVec.getLsbD_extractLsb', BitVec.getLsbD_append]
  interval_cases i <;> simp

theorem rdField_encodeL : rdField (encodeL op r v) = fieldOfReg r := by
  apply BitVec.eq_of_getLsbD_eq; intro i hi
  simp only [rdField, encodeL, BitVec.getLsbD_extractLsb', BitVec.getLsbD_append]
  interval_cases i <;> simp

theorem imm32Field_encodeL : imm32Field (encodeL op r v) = imm32OfOperand v := by
  apply BitVec.eq_of_getLsbD_eq; intro i hi
  simp only [imm32Field, encodeL, BitVec.getLsbD_extractLsb', BitVec.getLsbD_append]
  simp [hi]

theorem mbz_encodeL : encodeL op r v &&& mbzL = 0#64 := by
  rw [mbzL_zero]
  apply BitVec.eq_of_getLsbD_eq; intro i hi
  simp only [encodeL, BitVec.getLsbD_extractLsb', BitVec.getLsbD_append]
  interval_cases i <;> simp

theorem opField_encodeM : opField (encodeM op r v) = op := by
  apply BitVec.eq_of_getLsbD_eq; intro i hi
  simp only [opField, encodeM, BitVec.getLsbD_extractLsb', BitVec.getLsbD_append]
  interval_cases i <;> simp

theorem rdField_encodeM : rdField (encodeM op r v) = fieldOfReg r := by
  apply BitVec.eq_of_getLsbD_eq; intro i hi
  simp only [rdField, encodeM, BitVec.getLsbD_extractLsb', BitVec.getLsbD_append]
  interval_cases i <;> simp

theorem addr48Field_encodeM : addr48Field (encodeM op r v) = addr48OfOperand v := by
  apply BitVec.eq_of_getLsbD_eq; intro i hi
  simp only [addr48Field, encodeM, BitVec.getLsbD_extractLsb', BitVec.getLsbD_append]
  simp [hi]

theorem opField_encodeJ : opField (encodeJ op v) = op := by
  apply BitVec.eq_of_getLsbD_eq; intro i hi
  simp only [opField, encodeJ, BitVec.getLsbD_extractLsb', BitVec.getLsbD_append]
  interval_cases i <;> simp

theorem addr48Field_encodeJ : addr48Field (encodeJ op v) = addr48OfOperand v := by
  apply BitVec.eq_of_getLsbD_eq; intro i hi
  simp only [addr48Field, encodeJ, BitVec.getLsbD_extractLsb', BitVec.getLsbD_append]
  simp [hi]

theorem mbz_encodeJ : encodeJ op v &&& mbzJ = 0#64 := by
  rw [mbzJ_zero]
  apply BitVec.eq_of_getLsbD_eq; intro i hi
  simp only [encodeJ, BitVec.getLsbD_extractLsb', BitVec.getLsbD_append]
  interval_cases i <;> simp

theorem opField_encodeX : opField (encodeX op a) = op := by
  apply BitVec.eq_of_getLsbD_eq; intro i hi
  simp only [opField, encodeX, BitVec.getLsbD_extractLsb', BitVec.getLsbD_append]
  interval_cases i <;> simp

theorem rs1Field_encodeX : rs1Field (encodeX op a) = fieldOfReg a := by
  apply BitVec.eq_of_getLsbD_eq; intro i hi
  simp only [rs1Field, encodeX, BitVec.getLsbD_extractLsb', BitVec.getLsbD_append]
  interval_cases i <;> simp

theorem mbz_encodeX : encodeX op a &&& mbzX = 0#64 := by
  rw [mbzX_zero]
  constructor
  · apply BitVec.eq_of_getLsbD_eq; intro i hi
    simp only [encodeX, BitVec.getLsbD_extractLsb', BitVec.getLsbD_append]
    interval_cases i <;> simp
  · apply BitVec.eq_of_getLsbD_eq; intro i hi
    simp only [encodeX, BitVec.getLsbD_extractLsb', BitVec.getLsbD_append]
    simp [hi]

theorem opField_encodeB : opField (encodeB op a b v) = op := by
  apply BitVec.eq_of_getLsbD_eq; intro i hi
  simp only [opField, encodeB, BitVec.getLsbD_extractLsb', BitVec.getLsbD_append]
  interval_cases i <;> simp

theorem rs1Field_encodeB : rs1Field (encodeB op a b v) = fieldOfReg a := by
  apply BitVec.eq_of_getLsbD_eq; intro i hi
  simp only [rs1Field, encodeB, BitVec.getLsbD_extractLsb', BitVec.getLsbD_append]
  interval_cases i <;> simp

theorem rs2Field_encodeB : rs2Field (encodeB op a b v) = fieldOfReg b := by
  apply BitVec.eq_of_getLsbD_eq; intro i hi
  simp only [rs2Field, encodeB, BitVec.getLsbD_extractLsb', BitVec.getLsbD_append]
  interval_cases i <;> simp

theorem imm32Field_encodeB : imm32Field (encodeB op a b v) = imm32OfOperand v := by
  apply BitVec.eq_of_getLsbD_eq; intro i hi
  simp only [imm32Field, encodeB, BitVec.getLsbD_extractLsb', BitVec.getLsbD_append]
  simp [hi]

theorem mbz_encodeB : encodeB op a b v &&& mbzB = 0#64 := by
  rw [mbzB_zero]
  apply BitVec.eq_of_getLsbD_eq; intro i hi
  simp only [encodeB, BitVec.getLsbD_extractLsb', BitVec.getLsbD_append]
  interval_cases i <;> simp

theorem opField_encodeS : opField (encodeS op) = op := by
  apply BitVec.eq_of_getLsbD_eq; intro i hi
  simp only [opField, encodeS, BitVec.getLsbD_extractLsb', BitVec.getLsbD_append]
  interval_cases i <;> simp

theorem mbz_encodeS : encodeS op &&& mbzS = 0#64 := by
  rw [mbzS_zero]
  apply BitVec.eq_of_getLsbD_eq; intro i hi
  simp only [encodeS, BitVec.getLsbD_extractLsb', BitVec.getLsbD_append]
  simp [hi]

end

/-! ### Operands through their fields (R68, R69) -/

/-- An immediate in range comes back from its field (R68). -/
theorem signExtend_imm32OfOperand {v : Word} (h : immInRange v) : (imm32OfOperand v).signExtend 64 = v := by
  have ht : imm32OfOperand v = v.setWidth 32 := by
    apply BitVec.eq_of_getLsbD_eq; intro i hi
    simp [imm32OfOperand, hi]
  apply BitVec.eq_of_toInt_eq
  obtain ⟨h1, h2⟩ := h
  rw [BitVec.toInt_eq_toNat_bmod] at h1 h2
  rw [ht, BitVec.toInt_signExtend_of_le (by omega), BitVec.toInt_setWidth, BitVec.toInt_eq_toNat_bmod]
  have := v.isLt
  simp only [Int.bmod_def] at h1 h2 ⊢
  norm_num at h1 h2 ⊢
  split_ifs at h1 h2 ⊢ <;> omega

/-- An address in range comes back from its field (R69). -/
theorem zeroExtend_addr48OfOperand {a : Word} (h : addrInRange a) : (addr48OfOperand a).zeroExtend 64 = a := by
  have ht : addr48OfOperand a = a.setWidth 48 := by
    apply BitVec.eq_of_getLsbD_eq; intro i hi
    simp [addr48OfOperand, hi]
  apply BitVec.eq_of_toNat_eq
  rw [ht]
  simp only [BitVec.truncate_eq_setWidth, BitVec.toNat_setWidth]
  unfold addrInRange at h
  omega

end Sys2Proof
end

