-- ==== Sys2Proof/Laws/State.lean ====
section
/-! SUPPORT. What each update of the state does to each field, one lemma per field per update, so that no later proof
unfolds a record update. -/

namespace Sys2Proof.Machine

open Sys2Proof

variable (s : State)

/-! ### setReg -/

@[simp] theorem State.setReg_config (r : Reg) (v : Word) : (s.setReg r v).config = s.config := rfl
@[simp] theorem State.setReg_regs (r : Reg) (v : Word) : (s.setReg r v).regs = s.regs.set r v := rfl
@[simp] theorem State.setReg_pc (r : Reg) (v : Word) : (s.setReg r v).pc = s.pc := rfl
@[simp] theorem State.setReg_flagZ (r : Reg) (v : Word) : (s.setReg r v).flagZ = s.flagZ := rfl
@[simp] theorem State.setReg_flagN (r : Reg) (v : Word) : (s.setReg r v).flagN = s.flagN := rfl
@[simp] theorem State.setReg_flagC (r : Reg) (v : Word) : (s.setReg r v).flagC = s.flagC := rfl
@[simp] theorem State.setReg_flagV (r : Reg) (v : Word) : (s.setReg r v).flagV = s.flagV := rfl
@[simp] theorem State.setReg_running (r : Reg) (v : Word) : (s.setReg r v).running = s.running := rfl
@[simp] theorem State.setReg_haltCause (r : Reg) (v : Word) : (s.setReg r v).haltCause = s.haltCause := rfl
@[simp] theorem State.setReg_faultSub (r : Reg) (v : Word) : (s.setReg r v).faultSub = s.faultSub := rfl
@[simp] theorem State.setReg_faultPc (r : Reg) (v : Word) : (s.setReg r v).faultPc = s.faultPc := rfl
@[simp] theorem State.setReg_faultWord (r : Reg) (v : Word) : (s.setReg r v).faultWord = s.faultWord := rfl
@[simp] theorem State.setReg_faultAddr (r : Reg) (v : Word) : (s.setReg r v).faultAddr = s.faultAddr := rfl
@[simp] theorem State.setReg_mem (r : Reg) (v : Word) : (s.setReg r v).mem = s.mem := rfl
@[simp] theorem State.setReg_input (r : Reg) (v : Word) : (s.setReg r v).input = s.input := rfl
@[simp] theorem State.setReg_output (r : Reg) (v : Word) : (s.setReg r v).output = s.output := rfl
@[simp] theorem State.setReg_readByte (r : Reg) (v : Word) (x : Nat) : (s.setReg r v).readByte x = s.readByte x := rfl
@[simp] theorem State.setReg_nextPc (r : Reg) (v : Word) : (s.setReg r v).nextPc = s.nextPc := rfl

/-! ### setPc -/

@[simp] theorem State.setPc_config (t : Word) : (s.setPc t).config = s.config := rfl
@[simp] theorem State.setPc_regs (t : Word) : (s.setPc t).regs = s.regs := rfl
@[simp] theorem State.setPc_pc (t : Word) : (s.setPc t).pc = t := rfl
@[simp] theorem State.setPc_flagZ (t : Word) : (s.setPc t).flagZ = s.flagZ := rfl
@[simp] theorem State.setPc_flagN (t : Word) : (s.setPc t).flagN = s.flagN := rfl
@[simp] theorem State.setPc_flagC (t : Word) : (s.setPc t).flagC = s.flagC := rfl
@[simp] theorem State.setPc_flagV (t : Word) : (s.setPc t).flagV = s.flagV := rfl
@[simp] theorem State.setPc_running (t : Word) : (s.setPc t).running = s.running := rfl
@[simp] theorem State.setPc_haltCause (t : Word) : (s.setPc t).haltCause = s.haltCause := rfl
@[simp] theorem State.setPc_faultSub (t : Word) : (s.setPc t).faultSub = s.faultSub := rfl
@[simp] theorem State.setPc_faultPc (t : Word) : (s.setPc t).faultPc = s.faultPc := rfl
@[simp] theorem State.setPc_faultWord (t : Word) : (s.setPc t).faultWord = s.faultWord := rfl
@[simp] theorem State.setPc_faultAddr (t : Word) : (s.setPc t).faultAddr = s.faultAddr := rfl
@[simp] theorem State.setPc_mem (t : Word) : (s.setPc t).mem = s.mem := rfl
@[simp] theorem State.setPc_input (t : Word) : (s.setPc t).input = s.input := rfl
@[simp] theorem State.setPc_output (t : Word) : (s.setPc t).output = s.output := rfl
@[simp] theorem State.setPc_reg (t : Word) (q : Reg) : (s.setPc t).reg q = s.reg q := rfl
@[simp] theorem State.setPc_readByte (t : Word) (x : Nat) : (s.setPc t).readByte x = s.readByte x := rfl

/-! ### advance -/

@[simp] theorem State.advance_config : (s.advance).config = s.config := rfl
@[simp] theorem State.advance_regs : (s.advance).regs = s.regs := rfl
@[simp] theorem State.advance_pc : (s.advance).pc = s.nextPc := rfl
@[simp] theorem State.advance_flagZ : (s.advance).flagZ = s.flagZ := rfl
@[simp] theorem State.advance_flagN : (s.advance).flagN = s.flagN := rfl
@[simp] theorem State.advance_flagC : (s.advance).flagC = s.flagC := rfl
@[simp] theorem State.advance_flagV : (s.advance).flagV = s.flagV := rfl
@[simp] theorem State.advance_running : (s.advance).running = s.running := rfl
@[simp] theorem State.advance_haltCause : (s.advance).haltCause = s.haltCause := rfl
@[simp] theorem State.advance_faultSub : (s.advance).faultSub = s.faultSub := rfl
@[simp] theorem State.advance_faultPc : (s.advance).faultPc = s.faultPc := rfl
@[simp] theorem State.advance_faultWord : (s.advance).faultWord = s.faultWord := rfl
@[simp] theorem State.advance_faultAddr : (s.advance).faultAddr = s.faultAddr := rfl
@[simp] theorem State.advance_mem : (s.advance).mem = s.mem := rfl
@[simp] theorem State.advance_input : (s.advance).input = s.input := rfl
@[simp] theorem State.advance_output : (s.advance).output = s.output := rfl
@[simp] theorem State.advance_reg (q : Reg) : (s.advance).reg q = s.reg q := rfl
@[simp] theorem State.advance_readByte (x : Nat) : (s.advance).readByte x = s.readByte x := rfl

/-! ### setZN -/

@[simp] theorem State.setZN_config (z n : Bool) : (s.setZN z n).config = s.config := rfl
@[simp] theorem State.setZN_regs (z n : Bool) : (s.setZN z n).regs = s.regs := rfl
@[simp] theorem State.setZN_pc (z n : Bool) : (s.setZN z n).pc = s.pc := rfl
@[simp] theorem State.setZN_flagZ (z n : Bool) : (s.setZN z n).flagZ = z := rfl
@[simp] theorem State.setZN_flagN (z n : Bool) : (s.setZN z n).flagN = n := rfl
@[simp] theorem State.setZN_flagC (z n : Bool) : (s.setZN z n).flagC = s.flagC := rfl
@[simp] theorem State.setZN_flagV (z n : Bool) : (s.setZN z n).flagV = s.flagV := rfl
@[simp] theorem State.setZN_running (z n : Bool) : (s.setZN z n).running = s.running := rfl
@[simp] theorem State.setZN_haltCause (z n : Bool) : (s.setZN z n).haltCause = s.haltCause := rfl
@[simp] theorem State.setZN_faultSub (z n : Bool) : (s.setZN z n).faultSub = s.faultSub := rfl
@[simp] theorem State.setZN_faultPc (z n : Bool) : (s.setZN z n).faultPc = s.faultPc := rfl
@[simp] theorem State.setZN_faultWord (z n : Bool) : (s.setZN z n).faultWord = s.faultWord := rfl
@[simp] theorem State.setZN_faultAddr (z n : Bool) : (s.setZN z n).faultAddr = s.faultAddr := rfl
@[simp] theorem State.setZN_mem (z n : Bool) : (s.setZN z n).mem = s.mem := rfl
@[simp] theorem State.setZN_input (z n : Bool) : (s.setZN z n).input = s.input := rfl
@[simp] theorem State.setZN_output (z n : Bool) : (s.setZN z n).output = s.output := rfl
@[simp] theorem State.setZN_reg (z n : Bool) (q : Reg) : (s.setZN z n).reg q = s.reg q := rfl
@[simp] theorem State.setZN_readByte (z n : Bool) (x : Nat) : (s.setZN z n).readByte x = s.readByte x := rfl
@[simp] theorem State.setZN_nextPc (z n : Bool) : (s.setZN z n).nextPc = s.nextPc := rfl

/-! ### setMem -/

@[simp] theorem State.setMem_config (m : Memory) : (s.setMem m).config = s.config := rfl
@[simp] theorem State.setMem_regs (m : Memory) : (s.setMem m).regs = s.regs := rfl
@[simp] theorem State.setMem_pc (m : Memory) : (s.setMem m).pc = s.pc := rfl
@[simp] theorem State.setMem_flagZ (m : Memory) : (s.setMem m).flagZ = s.flagZ := rfl
@[simp] theorem State.setMem_flagN (m : Memory) : (s.setMem m).flagN = s.flagN := rfl
@[simp] theorem State.setMem_flagC (m : Memory) : (s.setMem m).flagC = s.flagC := rfl
@[simp] theorem State.setMem_flagV (m : Memory) : (s.setMem m).flagV = s.flagV := rfl
@[simp] theorem State.setMem_running (m : Memory) : (s.setMem m).running = s.running := rfl
@[simp] theorem State.setMem_haltCause (m : Memory) : (s.setMem m).haltCause = s.haltCause := rfl
@[simp] theorem State.setMem_faultSub (m : Memory) : (s.setMem m).faultSub = s.faultSub := rfl
@[simp] theorem State.setMem_faultPc (m : Memory) : (s.setMem m).faultPc = s.faultPc := rfl
@[simp] theorem State.setMem_faultWord (m : Memory) : (s.setMem m).faultWord = s.faultWord := rfl
@[simp] theorem State.setMem_faultAddr (m : Memory) : (s.setMem m).faultAddr = s.faultAddr := rfl
@[simp] theorem State.setMem_mem (m : Memory) : (s.setMem m).mem = m := rfl
@[simp] theorem State.setMem_input (m : Memory) : (s.setMem m).input = s.input := rfl
@[simp] theorem State.setMem_output (m : Memory) : (s.setMem m).output = s.output := rfl
@[simp] theorem State.setMem_reg (m : Memory) (q : Reg) : (s.setMem m).reg q = s.reg q := rfl
@[simp] theorem State.setMem_readByte (m : Memory) (x : Nat) : (s.setMem m).readByte x = m.read x := rfl
@[simp] theorem State.setMem_nextPc (m : Memory) : (s.setMem m).nextPc = s.nextPc := rfl

/-! ### setInput -/

@[simp] theorem State.setInput_config (vs : List Word) : (s.setInput vs).config = s.config := rfl
@[simp] theorem State.setInput_regs (vs : List Word) : (s.setInput vs).regs = s.regs := rfl
@[simp] theorem State.setInput_pc (vs : List Word) : (s.setInput vs).pc = s.pc := rfl
@[simp] theorem State.setInput_flagZ (vs : List Word) : (s.setInput vs).flagZ = s.flagZ := rfl
@[simp] theorem State.setInput_flagN (vs : List Word) : (s.setInput vs).flagN = s.flagN := rfl
@[simp] theorem State.setInput_flagC (vs : List Word) : (s.setInput vs).flagC = s.flagC := rfl
@[simp] theorem State.setInput_flagV (vs : List Word) : (s.setInput vs).flagV = s.flagV := rfl
@[simp] theorem State.setInput_running (vs : List Word) : (s.setInput vs).running = s.running := rfl
@[simp] theorem State.setInput_haltCause (vs : List Word) : (s.setInput vs).haltCause = s.haltCause := rfl
@[simp] theorem State.setInput_faultSub (vs : List Word) : (s.setInput vs).faultSub = s.faultSub := rfl
@[simp] theorem State.setInput_faultPc (vs : List Word) : (s.setInput vs).faultPc = s.faultPc := rfl
@[simp] theorem State.setInput_faultWord (vs : List Word) : (s.setInput vs).faultWord = s.faultWord := rfl
@[simp] theorem State.setInput_faultAddr (vs : List Word) : (s.setInput vs).faultAddr = s.faultAddr := rfl
@[simp] theorem State.setInput_mem (vs : List Word) : (s.setInput vs).mem = s.mem := rfl
@[simp] theorem State.setInput_input (vs : List Word) : (s.setInput vs).input = vs := rfl
@[simp] theorem State.setInput_output (vs : List Word) : (s.setInput vs).output = s.output := rfl
@[simp] theorem State.setInput_reg (vs : List Word) (q : Reg) : (s.setInput vs).reg q = s.reg q := rfl
@[simp] theorem State.setInput_readByte (vs : List Word) (x : Nat) : (s.setInput vs).readByte x = s.readByte x := rfl
@[simp] theorem State.setInput_nextPc (vs : List Word) : (s.setInput vs).nextPc = s.nextPc := rfl

/-! ### emit -/

@[simp] theorem State.emit_config (v : Word) : (s.emit v).config = s.config := rfl
@[simp] theorem State.emit_regs (v : Word) : (s.emit v).regs = s.regs := rfl
@[simp] theorem State.emit_pc (v : Word) : (s.emit v).pc = s.pc := rfl
@[simp] theorem State.emit_flagZ (v : Word) : (s.emit v).flagZ = s.flagZ := rfl
@[simp] theorem State.emit_flagN (v : Word) : (s.emit v).flagN = s.flagN := rfl
@[simp] theorem State.emit_flagC (v : Word) : (s.emit v).flagC = s.flagC := rfl
@[simp] theorem State.emit_flagV (v : Word) : (s.emit v).flagV = s.flagV := rfl
@[simp] theorem State.emit_running (v : Word) : (s.emit v).running = s.running := rfl
@[simp] theorem State.emit_haltCause (v : Word) : (s.emit v).haltCause = s.haltCause := rfl
@[simp] theorem State.emit_faultSub (v : Word) : (s.emit v).faultSub = s.faultSub := rfl
@[simp] theorem State.emit_faultPc (v : Word) : (s.emit v).faultPc = s.faultPc := rfl
@[simp] theorem State.emit_faultWord (v : Word) : (s.emit v).faultWord = s.faultWord := rfl
@[simp] theorem State.emit_faultAddr (v : Word) : (s.emit v).faultAddr = s.faultAddr := rfl
@[simp] theorem State.emit_mem (v : Word) : (s.emit v).mem = s.mem := rfl
@[simp] theorem State.emit_input (v : Word) : (s.emit v).input = s.input := rfl
@[simp] theorem State.emit_output (v : Word) : (s.emit v).output = s.output ++ [v] := rfl
@[simp] theorem State.emit_reg (v : Word) (q : Reg) : (s.emit v).reg q = s.reg q := rfl
@[simp] theorem State.emit_readByte (v : Word) (x : Nat) : (s.emit v).readByte x = s.readByte x := rfl
@[simp] theorem State.emit_nextPc (v : Word) : (s.emit v).nextPc = s.nextPc := rfl

/-! ### retire -/

@[simp] theorem State.retire_config (rd : Reg) (v : Word) : (s.retire rd v).config = s.config := rfl
@[simp] theorem State.retire_regs (rd : Reg) (v : Word) : (s.retire rd v).regs = s.regs.set rd v := rfl
@[simp] theorem State.retire_pc (rd : Reg) (v : Word) : (s.retire rd v).pc = s.nextPc := rfl
@[simp] theorem State.retire_flagZ (rd : Reg) (v : Word) : (s.retire rd v).flagZ = s.flagZ := rfl
@[simp] theorem State.retire_flagN (rd : Reg) (v : Word) : (s.retire rd v).flagN = s.flagN := rfl
@[simp] theorem State.retire_flagC (rd : Reg) (v : Word) : (s.retire rd v).flagC = s.flagC := rfl
@[simp] theorem State.retire_flagV (rd : Reg) (v : Word) : (s.retire rd v).flagV = s.flagV := rfl
@[simp] theorem State.retire_running (rd : Reg) (v : Word) : (s.retire rd v).running = s.running := rfl
@[simp] theorem State.retire_haltCause (rd : Reg) (v : Word) : (s.retire rd v).haltCause = s.haltCause := rfl
@[simp] theorem State.retire_faultSub (rd : Reg) (v : Word) : (s.retire rd v).faultSub = s.faultSub := rfl
@[simp] theorem State.retire_faultPc (rd : Reg) (v : Word) : (s.retire rd v).faultPc = s.faultPc := rfl
@[simp] theorem State.retire_faultWord (rd : Reg) (v : Word) : (s.retire rd v).faultWord = s.faultWord := rfl
@[simp] theorem State.retire_faultAddr (rd : Reg) (v : Word) : (s.retire rd v).faultAddr = s.faultAddr := rfl
@[simp] theorem State.retire_mem (rd : Reg) (v : Word) : (s.retire rd v).mem = s.mem := rfl
@[simp] theorem State.retire_input (rd : Reg) (v : Word) : (s.retire rd v).input = s.input := rfl
@[simp] theorem State.retire_output (rd : Reg) (v : Word) : (s.retire rd v).output = s.output := rfl
@[simp] theorem State.retire_readByte (rd : Reg) (v : Word) (x : Nat) : (s.retire rd v).readByte x = s.readByte x := rfl

/-! ### haltWith -/

@[simp] theorem State.haltWith_config (c u : BitVec 3) (w a p : Word) : (s.haltWith c u w a p).config = s.config := rfl
@[simp] theorem State.haltWith_regs (c u : BitVec 3) (w a p : Word) : (s.haltWith c u w a p).regs = s.regs := rfl
@[simp] theorem State.haltWith_pc (c u : BitVec 3) (w a p : Word) : (s.haltWith c u w a p).pc = p := rfl
@[simp] theorem State.haltWith_flagZ (c u : BitVec 3) (w a p : Word) : (s.haltWith c u w a p).flagZ = s.flagZ := rfl
@[simp] theorem State.haltWith_flagN (c u : BitVec 3) (w a p : Word) : (s.haltWith c u w a p).flagN = s.flagN := rfl
@[simp] theorem State.haltWith_flagC (c u : BitVec 3) (w a p : Word) : (s.haltWith c u w a p).flagC = s.flagC := rfl
@[simp] theorem State.haltWith_flagV (c u : BitVec 3) (w a p : Word) : (s.haltWith c u w a p).flagV = s.flagV := rfl
@[simp] theorem State.haltWith_running (c u : BitVec 3) (w a p : Word) : (s.haltWith c u w a p).running = false := rfl
@[simp] theorem State.haltWith_haltCause (c u : BitVec 3) (w a p : Word) : (s.haltWith c u w a p).haltCause = c := rfl
@[simp] theorem State.haltWith_faultSub (c u : BitVec 3) (w a p : Word) : (s.haltWith c u w a p).faultSub = u := rfl
@[simp] theorem State.haltWith_faultPc (c u : BitVec 3) (w a p : Word) : (s.haltWith c u w a p).faultPc = s.pc := rfl
@[simp] theorem State.haltWith_faultWord (c u : BitVec 3) (w a p : Word) : (s.haltWith c u w a p).faultWord = w := rfl
@[simp] theorem State.haltWith_faultAddr (c u : BitVec 3) (w a p : Word) : (s.haltWith c u w a p).faultAddr = a := rfl
@[simp] theorem State.haltWith_mem (c u : BitVec 3) (w a p : Word) : (s.haltWith c u w a p).mem = s.mem := rfl
@[simp] theorem State.haltWith_input (c u : BitVec 3) (w a p : Word) : (s.haltWith c u w a p).input = s.input := rfl
@[simp] theorem State.haltWith_output (c u : BitVec 3) (w a p : Word) : (s.haltWith c u w a p).output = s.output := rfl
@[simp] theorem State.haltWith_reg (c u : BitVec 3) (w a p : Word) (q : Reg) : (s.haltWith c u w a p).reg q = s.reg q := rfl
@[simp] theorem State.haltWith_readByte (c u : BitVec 3) (w a p : Word) (x : Nat) : (s.haltWith c u w a p).readByte x = s.readByte x := rfl

/-! ### Reading a register after a write (R10, R17) -/

@[simp] theorem State.reg_setReg_same (r : Reg) (v : Word) : (s.setReg r v).reg r = v := by
  simp [State.reg, State.setReg]

theorem State.reg_setReg_other (r q : Reg) (v : Word) (h : q ≠ r) : (s.setReg r v).reg q = s.reg q := by
  have h' : r.val ≠ q.val := fun e => h (Fin.ext e.symm)
  simp [State.reg, State.setReg, h']

@[simp] theorem State.reg_retire_same (r : Reg) (v : Word) : (s.retire r v).reg r = v :=
  s.reg_setReg_same r v

theorem State.reg_retire_other (r q : Reg) (v : Word) (h : q ≠ r) : (s.retire r v).reg q = s.reg q :=
  s.reg_setReg_other r q v h

/-- Two states are equal when all fields are. -/
theorem State.ext_fields {s t : State} (h1 : s.config = t.config) (h2 : s.regs = t.regs) (h3 : s.pc = t.pc)
    (h4 : s.flagZ = t.flagZ) (h5 : s.flagN = t.flagN) (h6 : s.flagC = t.flagC) (h7 : s.flagV = t.flagV)
    (h8 : s.running = t.running) (h9 : s.haltCause = t.haltCause) (h10 : s.faultSub = t.faultSub)
    (h11 : s.faultPc = t.faultPc) (h12 : s.faultWord = t.faultWord) (h13 : s.faultAddr = t.faultAddr)
    (h14 : s.mem = t.mem) (h15 : s.input = t.input) (h16 : s.output = t.output) : s = t := by
  cases s; cases t; simp_all

end Sys2Proof.Machine
end

