-- ==== Sys2Proof/Laws/Ops.lean ====
section
/-! SUPPORT. What each shared operation can do, said once: the provers cite these instead of unfolding it. -/

namespace Sys2Proof.Machine

open Sys2Proof

/-! ### Access checks (R45, R46) -/

theorem State.accessError_eq_none {s : State} {a : Word} :
    s.accessError a = none ↔ a.toNat % 8 = 0 ∧ a.toNat + 8 ≤ s.config.memBytes := by
  unfold State.accessError
  split_ifs with h1 h2 <;> simp <;> omega

theorem State.accessError_eq_misaligned {s : State} {a : Word} :
    s.accessError a = some .misaligned ↔ a.toNat % 8 ≠ 0 := by
  unfold State.accessError
  split_ifs with h1 h2 <;> simp <;> omega

theorem State.accessError_eq_outOfRange {s : State} {a : Word} :
    s.accessError a = some .outOfRange ↔ a.toNat % 8 = 0 ∧ s.config.memBytes < a.toNat + 8 := by
  unfold State.accessError
  split_ifs with h1 h2 <;> simp <;> omega

/-! ### Fetch, load, store -/

/-- A fetch that succeeds reads the word at an aligned address in range (R40). -/
theorem State.fetch_ok {s : State} {a w : Word} :
    s.fetch a = .ok w ↔ s.accessError a = none ∧ w = s.mem.readWord a.toNat := by
  unfold State.fetch
  cases h : s.accessError a <;> simp [eq_comm]

/-- A fetch that fails names the error of its address (R40). -/
theorem State.fetch_error {s : State} {a : Word} {f : CoreFault} :
    s.fetch a = .error f ↔ ∃ e, s.accessError a = some e ∧ f = .memoryFault .fetch e a := by
  unfold State.fetch
  cases h : s.accessError a <;> simp [eq_comm]

/-- A read that gives a value took it from the input device or from memory (R41, R47). -/
theorem State.memRead_value {s s' : State} {a v : Word} (h : s.memRead a = .value v s') :
    (a = s.config.inAddr ∧ s.input = v :: s'.input ∧ s' = s.setInput s'.input) ∨
    (a ≠ s.config.inAddr ∧ s.accessError a = none ∧ v = s.mem.readWord a.toNat ∧ s' = s) := by
  unfold State.memRead at h
  split_ifs at h with ha
  · left
    split at h
    · simp at h
    · next v' vs hv =>
      simp only [ReadResult.value.injEq] at h
      obtain ⟨rfl, rfl⟩ := h
      exact ⟨ha, hv, rfl⟩
  · right
    split at h
    · simp at h
    · next hn =>
      simp only [ReadResult.value.injEq] at h
      exact ⟨ha, hn, h.1.symm, h.2.symm⟩

/-- A read waits exactly at the input device with nothing supplied (R47). -/
theorem State.memRead_waiting {s : State} {a : Word} :
    s.memRead a = .waiting ↔ a = s.config.inAddr ∧ s.input = [] := by
  unfold State.memRead
  split_ifs with ha
  · cases s.input <;> simp [ha]
  · cases s.accessError a <;> simp [ha]

/-- A read that faults names the error of its address, which is not the input device's (R41). -/
theorem State.memRead_fault {s : State} {a : Word} {f : CoreFault} :
    s.memRead a = .fault f ↔
      a ≠ s.config.inAddr ∧ ∃ e, s.accessError a = some e ∧ f = .memoryFault .load e a := by
  unfold State.memRead
  split_ifs with ha
  · cases s.input <;> simp [ha]
  · cases s.accessError a <;> simp [ha, eq_comm]

/-- A write that succeeds emits at the output device or stores to memory (R42, R48). -/
theorem State.memWrite_ok {s s' : State} {a v : Word} (h : s.memWrite a v = .ok s') :
    (a = s.config.outAddr ∧ s' = s.emit v) ∨
    (a ≠ s.config.outAddr ∧ s.accessError a = none ∧ s' = s.setMem (s.mem.writeWord a.toNat v)) := by
  unfold State.memWrite at h
  split_ifs at h with ha
  · exact .inl ⟨ha, by simpa using h.symm⟩
  · right
    cases he : s.accessError a with
    | some e => simp [he] at h
    | none =>
      refine ⟨ha, rfl, ?_⟩
      simpa [he] using h.symm

/-- A write that fails names the error of its address, which is not the output device's (R42). -/
theorem State.memWrite_error {s : State} {a v : Word} {f : CoreFault} :
    s.memWrite a v = .error f ↔
      a ≠ s.config.outAddr ∧ ∃ e, s.accessError a = some e ∧ f = .memoryFault .store e a := by
  unfold State.memWrite
  split_ifs with ha
  · simp [ha]
  · cases s.accessError a <;> simp [ha, eq_comm]

/-! ### Faults (R119) -/

@[simp] theorem State.takeFault_none (s : State) (f : CoreFault) :
    s.takeFault f none = s.haltWith f.cause f.sub 0#64 f.addr s.pc := rfl

@[simp] theorem State.takeFault_some (s : State) (f : CoreFault) (w : Word) :
    s.takeFault f (some w) = s.haltWith f.cause f.sub w f.addr s.nextPc := rfl

theorem State.raise_eq (s : State) (f : CoreFault) :
    s.raise f = s.haltWith f.cause f.sub s.instrWord f.addr s.nextPc := rfl

theorem State.halt_eq (s : State) : s.halt = s.haltWith 1#3 0#3 s.instrWord 0#64 s.nextPc := rfl

/-- The word that executes is the one that was fetched (R36, R40). -/
theorem State.instrWord_of_fetch {s : State} {w : Word} (h : s.fetch s.pc = .ok w) : s.instrWord = w :=
  (State.fetch_ok.1 h).2.symm

/-! ### The step (R37, R38) -/

theorem State.fetchDecode_ok {s : State} {i : Instr} :
    s.fetchDecode = .ok i ↔ ∃ w, s.fetch s.pc = .ok w ∧ decode w = .ok i := by
  unfold State.fetchDecode
  cases hf : s.fetch s.pc with
  | error f => simp
  | ok w => cases hd : decode w <;> simp [hd]

theorem State.fetchDecode_error {s : State} {f : CoreFault} {o : Option Word} :
    s.fetchDecode = .error (f, o) ↔
      (s.fetch s.pc = .error f ∧ o = none) ∨
      (∃ w e, s.fetch s.pc = .ok w ∧ decode w = .error e ∧ f = faultOfDecodeError e ∧ o = some w) := by
  unfold State.fetchDecode
  cases hf : s.fetch s.pc with
  | error f => simp [eq_comm]
  | ok w => cases hd : decode w <;> simp [hd, eq_comm]

/-- A step that gives a next state started in Running and took a fetch fault, took a decoding fault, or executed the
instruction it decoded. -/
theorem step_next {s t : State} (h : step s = .next t) :
    s.running = true ∧
    ((∃ f, s.fetch s.pc = .error f ∧ t = s.takeFault f none) ∨
     (∃ w e, s.fetch s.pc = .ok w ∧ decode w = .error e ∧ t = s.takeFault (faultOfDecodeError e) (some w)) ∨
     (∃ w i, s.fetch s.pc = .ok w ∧ decode w = .ok i ∧ exec i s = .next t)) := by
  unfold step at h
  split at h
  · simp at h
  · next hr =>
    refine ⟨hr, ?_⟩
    split at h
    · next f o hfd =>
      have ht : t = s.takeFault f o := by simpa using h.symm
      subst ht
      rcases State.fetchDecode_error.1 hfd with ⟨hf, rfl⟩ | ⟨w, e, hw, he, rfl, rfl⟩
      · exact .inl ⟨f, hf, rfl⟩
      · exact .inr (.inl ⟨w, e, hw, he, rfl⟩)
    · next i hfd =>
      obtain ⟨w, hw, hd⟩ := State.fetchDecode_ok.1 hfd
      exact .inr (.inr ⟨w, i, hw, hd, h⟩)

end Sys2Proof.Machine
end

