-- ==== Sys2Proof/Laws/Exec.lean ====
section
/-! SUPPORT. What executing an instruction can do, said once: every invariant of the step is a case analysis over
`Effect`. -/

namespace Sys2Proof.Machine

open Sys2Proof

/-- The ways an instruction takes a state to the next one. -/
inductive Effect (i : Instr) (s : State) : State → Prop
  /-- `rd` is written from registers, an immediate or memory. -/
  | writes (rd : Reg) (v : Word) (h : destOf i = some rd) : Effect i s (s.retire rd v)
  /-- A LOAD took the first value of the input stream (R47). -/
  | takesInput (rd : Reg) (v : Word) (vs : List Word) (hi : i = .load rd s.config.inAddr) (h : s.input = v :: vs) :
      Effect i s ((s.setInput vs).retire rd v)
  /-- A LOAD waits (R33, R47). -/
  | waits (rd : Reg) (hi : i = .load rd s.config.inAddr) (h : s.input = []) : Effect i s s
  /-- A STORE emitted its register (R48). -/
  | emits (rs : Reg) (hi : i = .store rs s.config.outAddr) : Effect i s (s.emit (s.reg rs)).advance
  /-- A STORE wrote a word of memory (R42). -/
  | stores (rs : Reg) (a : Word) (hi : i = .store rs a) (ho : a ≠ s.config.outAddr) (h : s.accessError a = none) :
      Effect i s (s.setMem (s.mem.writeWord a.toNat (s.reg rs))).advance
  /-- CMP wrote Z and N (R98). -/
  | compares (rd rs1 rs2 : Reg) (hi : i = .cmp rd rs1 rs2) :
      Effect i s (s.setZN (decide (s.reg rs1 = s.reg rs2)) (decide ((s.reg rs1).toInt < (s.reg rs2).toInt))).advance
  /-- A control-flow instruction wrote `pc` (R109). -/
  | jumps (target : Word) (h : destOf i = none) : Effect i s (s.setPc target)
  /-- HALT (R115). -/
  | halts (hi : i = .halt) : Effect i s s.halt
  /-- DIV by zero (R91). -/
  | divides (rd rs1 rs2 : Reg) (hi : i = .div rd rs1 rs2) (h : s.reg rs2 = 0#64) : Effect i s (s.raise .divisionByZero)
  /-- A LOAD faulted (R41). -/
  | loadFaults (rd : Reg) (a : Word) (e : AccessError) (hi : i = .load rd a) (hn : a ≠ s.config.inAddr)
      (h : s.accessError a = some e) : Effect i s (s.raise (.memoryFault .load e a))
  /-- A STORE faulted (R42). -/
  | storeFaults (rs : Reg) (a : Word) (e : AccessError) (hi : i = .store rs a) (hn : a ≠ s.config.outAddr)
      (h : s.accessError a = some e) : Effect i s (s.raise (.memoryFault .store e a))

theorem execDiv_effect {rd rs1 rs2 : Reg} {s t : State} (h : execDiv rd rs1 rs2 s = .next t) :
    Effect (.div rd rs1 rs2) s t := by
  unfold execDiv at h
  split_ifs at h with h0 <;> obtain rfl : _ = t := Host.Outcome.next.inj h
  · exact .divides rd rs1 rs2 rfl h0
  · exact .writes rd _ rfl

theorem execLoad_effect {rd : Reg} {a : Word} {s t : State} (h : execLoad rd a s = .next t) :
    Effect (.load rd a) s t := by
  unfold execLoad effectiveAddress at h
  split at h <;> rename_i heq <;> obtain rfl : _ = t := Host.Outcome.next.inj h
  · rcases State.memRead_value heq with ⟨rfl, hi, hs⟩ | ⟨_, _, rfl, rfl⟩
    · rw [hs]
      exact .takesInput rd _ _ rfl hi
    · exact .writes rd _ rfl
  · obtain ⟨rfl, hi⟩ := State.memRead_waiting.1 heq
    exact .waits rd rfl hi
  · obtain ⟨hn, e, he, rfl⟩ := State.memRead_fault.1 heq
    exact .loadFaults rd a e rfl hn he

theorem execStore_effect {rs : Reg} {a : Word} {s t : State} (h : execStore rs a s = .next t) :
    Effect (.store rs a) s t := by
  unfold execStore effectiveAddress at h
  split at h <;> rename_i heq <;> obtain rfl : _ = t := Host.Outcome.next.inj h
  · rcases State.memWrite_ok heq with ⟨rfl, rfl⟩ | ⟨ho, hn, rfl⟩
    · exact .emits rs rfl
    · exact .stores rs a rfl ho hn
  · obtain ⟨hn, e, he, rfl⟩ := State.memWrite_error.1 heq
    exact .storeFaults rs a e rfl hn he

/-- Whatever next state `exec` answers, it is one of the effects above. -/
theorem exec_effect {i : Instr} {s t : State} (h : exec i s = .next t) : Effect i s t := by
  cases i with
  | div rd rs1 rs2 => exact execDiv_effect h
  | load rd a => exact execLoad_effect h
  | store rs a => exact execStore_effect h
  | cmp rd rs1 rs2 => obtain rfl : _ = t := Host.Outcome.next.inj h; exact .compares rd rs1 rs2 rfl
  | halt => obtain rfl : _ = t := Host.Outcome.next.inj h; exact .halts rfl
  | jmp a => obtain rfl : _ = t := Host.Outcome.next.inj h; exact .jumps a rfl
  | jr rs1 => obtain rfl : _ = t := Host.Outcome.next.inj h; exact .jumps _ rfl
  | beq rs1 rs2 off =>
    obtain rfl : _ = t := Host.Outcome.next.inj h
    split_ifs
    · exact .jumps _ rfl
    · exact .jumps s.nextPc rfl
  | bne rs1 rs2 off =>
    obtain rfl : _ = t := Host.Outcome.next.inj h
    split_ifs
    · exact .jumps _ rfl
    · exact .jumps s.nextPc rfl
  | add rd rs1 rs2 | sub rd rs1 rs2 | mul rd rs1 rs2 | and rd rs1 rs2 | or rd rs1 rs2 | xor rd rs1 rs2
  | sll rd rs1 rs2 | srl rd rs1 rs2 | sra rd rs1 rs2 | addi rd rs1 imm | subi rd rs1 imm | andi rd rs1 imm
  | ori rd rs1 imm | xori rd rs1 imm | li rd imm =>
    obtain rfl : _ = t := Host.Outcome.next.inj h
    exact .writes rd _ rfl

end Sys2Proof.Machine
end

