-- ==== Sys2Proof/Laws/Memory.lean ====
section
/-! SUPPORT. The laws of memory: a read after a write, what a write leaves alone, and that every memory operation keeps
the canonical form. -/

namespace Sys2Proof.Machine

open Sys2Proof

/-! ### The canonical form -/

theorem Memory.wfFrom_mono {lo lo' : Nat} (h : lo' ≤ lo) :
    ∀ {m : Memory}, Memory.wfFrom lo m = true → Memory.wfFrom lo' m = true
  | [], _ => rfl
  | (a, b) :: m, hm => by
    simp only [Memory.wfFrom, Bool.and_eq_true, decide_eq_true_eq] at hm ⊢
    exact ⟨⟨by omega, hm.1.2⟩, hm.2⟩

/-- Nothing is listed below the bound of a canonical memory. -/
theorem Memory.read_eq_zero_of_wfFrom {a : Nat} :
    ∀ {lo : Nat} {m : Memory}, Memory.wfFrom lo m = true → a < lo → m.read a = 0#8
  | _, [], _, _ => rfl
  | lo, (k, v) :: m, hm, h => by
    simp only [Memory.wfFrom, Bool.and_eq_true, decide_eq_true_eq] at hm
    have hk : a ≠ k := by omega
    simp only [Memory.read, hk, if_false]
    exact Memory.read_eq_zero_of_wfFrom hm.2 (by omega)

theorem Memory.wfFrom_write (a : Nat) (b : Byte) :
    ∀ {lo : Nat} {m : Memory}, Memory.wfFrom lo m = true → lo ≤ a → Memory.wfFrom lo (m.write a b) = true
  | lo, [], _, h => by
    by_cases hb : b = 0#8 <;> simp [Memory.write, Memory.wfFrom, hb, h]
  | lo, (k, v) :: m, hm, h => by
    have hm' := hm
    simp only [Memory.wfFrom, Bool.and_eq_true, decide_eq_true_eq] at hm'
    obtain ⟨⟨hlo, hv⟩, hrest⟩ := hm'
    by_cases h1 : a < k
    · by_cases hb : b = 0#8
      · simpa [Memory.write, h1, hb] using hm
      · simp [Memory.write, h1, hb, Memory.wfFrom, h, hv, hrest]
    · by_cases h2 : a = k
      · by_cases hb : b = 0#8
        · simp only [Memory.write, h2, hb, if_true, if_false, lt_irrefl]
          exact Memory.wfFrom_mono (by omega) hrest
        · subst h2
          simp [Memory.write, hb, Memory.wfFrom, h, hrest]
      · have ih := Memory.wfFrom_write a b hrest (by omega)
        simp [Memory.write, h1, h2, Memory.wfFrom, hlo, hv, ih]

/-- A byte write keeps the canonical form. -/
theorem Memory.wf_write {m : Memory} (a : Nat) (b : Byte) (h : m.wf = true) : (m.write a b).wf = true :=
  Memory.wfFrom_write a b h (Nat.zero_le a)

/-- A write of several bytes keeps the canonical form. -/
theorem Memory.wf_writeBytes (bs : List Byte) :
    ∀ {m : Memory} (a : Nat), m.wf = true → (m.writeBytes a bs).wf = true := by
  induction bs with
  | nil => intro m a h; exact h
  | cons b bs ih => intro m a h; exact ih (a + 1) (Memory.wf_write a b h)

/-- A word write keeps the canonical form. -/
theorem Memory.wf_writeCells (cs : List Host.Cell) :
    ∀ {m : Memory}, m.wf = true → (m.writeCells cs).wf = true := by
  induction cs with
  | nil => exact fun h => h
  | cons c cs ih => exact fun h => ih (Memory.wf_write c.1 c.2 h)

theorem Memory.wf_writeWord {m : Memory} (a : Nat) (v : Word) (h : m.wf = true) : (m.writeWord a v).wf = true :=
  Memory.wf_writeBytes _ a h

theorem Memory.wf_nil : Memory.wf [] = true := rfl

/-! ### Addresses in range -/

theorem Memory.below_cons (n k : Nat) (v : Byte) (m : Memory) :
    Memory.below n ((k, v) :: m) = true ↔ k < n ∧ Memory.below n m = true := by
  simp [Memory.below]

theorem Memory.below_write {n : Nat} {m : Memory} (a : Nat) (b : Byte) (h : Memory.below n m = true) (ha : a < n) :
    Memory.below n (m.write a b) = true := by
  induction m with
  | nil => by_cases hb : b = 0#8 <;> simp [Memory.write, Memory.below, hb, ha]
  | cons c m ih =>
    obtain ⟨k, v⟩ := c
    have ⟨hk, hm⟩ := (Memory.below_cons n k v m).1 h
    simp only [Memory.write]
    split_ifs
    · exact h
    · exact (Memory.below_cons ..).2 ⟨ha, h⟩
    · exact hm
    · exact (Memory.below_cons ..).2 ⟨ha, hm⟩
    · exact (Memory.below_cons ..).2 ⟨hk, ih hm⟩

theorem Memory.below_writeBytes {n : Nat} (bs : List Byte) :
    ∀ {m : Memory} (a : Nat), Memory.below n m = true → a + bs.length ≤ n →
      Memory.below n (m.writeBytes a bs) = true := by
  induction bs with
  | nil => intro m a h _; exact h
  | cons b bs ih =>
    intro m a h ha
    simp only [List.length_cons] at ha
    exact ih (a + 1) (Memory.below_write a b h (by omega)) (by omega)

theorem Memory.below_writeCells {n : Nat} (cs : List Host.Cell) :
    ∀ {m : Memory}, Memory.below n m = true → (∀ c ∈ cs, c.1 < n) → Memory.below n (m.writeCells cs) = true := by
  induction cs with
  | nil => exact fun h _ => h
  | cons c cs ih =>
    exact fun h hc => ih (Memory.below_write c.1 c.2 h (hc c (by simp))) fun d hd => hc d (by simp [hd])

theorem Memory.below_writeWord {n : Nat} {m : Memory} (a : Nat) (v : Word) (h : Memory.below n m = true)
    (ha : a + 8 ≤ n) : Memory.below n (m.writeWord a v) = true :=
  Memory.below_writeBytes _ a h ha

/-! ### Reads after writes -/

/-- A byte write leaves every other address alone. -/
theorem Memory.read_write_other {x a : Nat} (b : Byte) (h : x ≠ a) : ∀ m : Memory, (m.write a b).read x = m.read x
  | [] => by by_cases hb : b = 0#8 <;> simp [Memory.write, Memory.read, hb, h]
  | (k, v) :: m => by
    have ih := Memory.read_write_other b h m
    simp only [Memory.write]
    split_ifs <;> simp_all [Memory.read]

/-- A byte read after a write to the same address gives the byte written. -/
theorem Memory.read_write_same (a : Nat) (b : Byte) :
    ∀ {lo : Nat} {m : Memory}, Memory.wfFrom lo m = true → (m.write a b).read a = b
  | _, [], _ => by by_cases hb : b = 0#8 <;> simp [Memory.write, Memory.read, hb]
  | lo, (k, v) :: m, hm => by
    simp only [Memory.wfFrom, Bool.and_eq_true, decide_eq_true_eq] at hm
    have ih := Memory.read_write_same a b hm.2
    have hz : a < k + 1 → Memory.read m a = 0#8 := Memory.read_eq_zero_of_wfFrom hm.2
    simp only [Memory.write]
    split_ifs with h1 h2 h3 h4
    · have : a ≠ k := by omega
      simp [Memory.read, this, hz (by omega), h2]
    · simp [Memory.read]
    · rw [hz (by omega), h4]
    · simp [Memory.read]
    · simp [Memory.read, h3, ih]

/-- A write of several bytes leaves the addresses outside them alone. -/
theorem Memory.read_writeBytes_other {x : Nat} (bs : List Byte) :
    ∀ (m : Memory) (a : Nat), (x < a ∨ a + bs.length ≤ x) → (m.writeBytes a bs).read x = m.read x := by
  induction bs with
  | nil => intro m a _; rfl
  | cons b bs ih =>
    intro m a h
    simp only [List.length_cons] at h
    rw [Memory.writeBytes, ih _ _ (by omega), Memory.read_write_other b (by omega)]

/-- A byte written as one of several is read back. -/
theorem Memory.read_writeBytes_at (bs : List Byte) :
    ∀ {m : Memory} (a i : Nat) (hi : i < bs.length), m.wf = true → (m.writeBytes a bs).read (a + i) = bs[i] := by
  induction bs with
  | nil => intro m a i hi; simp at hi
  | cons b bs ih =>
    intro m a i hi hm
    cases i with
    | zero =>
      rw [Memory.writeBytes, Memory.read_writeBytes_other bs _ _ (by omega)]
      exact Memory.read_write_same a b hm
    | succ i =>
      have := ih (a + 1) i (by simpa using hi) (Memory.wf_write a b hm)
      rw [Memory.writeBytes, show a + (i + 1) = a + 1 + i by omega, this]
      simp

/-- A word write leaves the bytes outside its eight alone. -/
theorem Memory.read_writeWord_other {x a : Nat} (m : Memory) (v : Word) (h : x < a ∨ a + 8 ≤ x) :
    (m.writeWord a v).read x = m.read x :=
  Memory.read_writeBytes_other _ m a h

/-- A word write places byte `i` of the word at `a + i`. -/
theorem Memory.read_writeWord_at {m : Memory} (a i : Nat) (v : Word) (hi : i < 8) (h : m.wf = true) :
    (m.writeWord a v).read (a + i) = byteOfWord v i := by
  rw [Memory.writeWord, Memory.read_writeBytes_at (bytesOfWord v) a i hi h]
  match i, hi with
  | 0, _ | 1, _ | 2, _ | 3, _ | 4, _ | 5, _ | 6, _ | 7, _ => rfl

/-- The bytes of a word, put together again, are the word (R44). -/
theorem wordOfBytes_bytes (v : Word) :
    wordOfBytes (byteOfWord v 0) (byteOfWord v 1) (byteOfWord v 2) (byteOfWord v 3)
      (byteOfWord v 4) (byteOfWord v 5) (byteOfWord v 6) (byteOfWord v 7) = v := by
  apply BitVec.eq_of_getLsbD_eq
  intro i hi
  simp only [wordOfBytes, byteOfWord, BitVec.getLsbD_append, BitVec.getLsbD_extractLsb']
  by_cases h1 : i < 8
  · simp [h1]
  by_cases h2 : i < 16
  · simp [h1, show i - 8 < 8 by omega, show 8 + (i - 8) = i by omega]
  by_cases h3 : i < 24
  · simp [h1, show ¬ i - 8 < 8 by omega, show i - 8 - 8 < 8 by omega, show 16 + (i - 8 - 8) = i by omega]
  by_cases h4 : i < 32
  · simp [h1, show ¬ i - 8 < 8 by omega, show ¬ i - 8 - 8 < 8 by omega, show i - 8 - 8 - 8 < 8 by omega,
      show 24 + (i - 8 - 8 - 8) = i by omega]
  by_cases h5 : i < 40
  · simp [h1, show ¬ i - 8 < 8 by omega, show ¬ i - 8 - 8 < 8 by omega, show ¬ i - 8 - 8 - 8 < 8 by omega,
      show i - 8 - 8 - 8 - 8 < 8 by omega, show 32 + (i - 8 - 8 - 8 - 8) = i by omega]
  by_cases h6 : i < 48
  · simp [h1, show ¬ i - 8 < 8 by omega, show ¬ i - 8 - 8 < 8 by omega, show ¬ i - 8 - 8 - 8 < 8 by omega,
      show ¬ i - 8 - 8 - 8 - 8 < 8 by omega, show i - 8 - 8 - 8 - 8 - 8 < 8 by omega,
      show 40 + (i - 8 - 8 - 8 - 8 - 8) = i by omega]
  by_cases h7 : i < 56
  · simp [h1, show ¬ i - 8 < 8 by omega, show ¬ i - 8 - 8 < 8 by omega, show ¬ i - 8 - 8 - 8 < 8 by omega,
      show ¬ i - 8 - 8 - 8 - 8 < 8 by omega, show ¬ i - 8 - 8 - 8 - 8 - 8 < 8 by omega,
      show i - 8 - 8 - 8 - 8 - 8 - 8 < 8 by omega, show 48 + (i - 8 - 8 - 8 - 8 - 8 - 8) = i by omega]
  · simp [h1, show ¬ i - 8 < 8 by omega, show ¬ i - 8 - 8 < 8 by omega, show ¬ i - 8 - 8 - 8 < 8 by omega,
      show ¬ i - 8 - 8 - 8 - 8 < 8 by omega, show ¬ i - 8 - 8 - 8 - 8 - 8 < 8 by omega,
      show ¬ i - 8 - 8 - 8 - 8 - 8 - 8 < 8 by omega, show i - 8 - 8 - 8 - 8 - 8 - 8 - 8 < 8 by omega,
      show 56 + (i - 8 - 8 - 8 - 8 - 8 - 8 - 8) = i by omega]

/-- A word read after a write of a word to the same address gives the word written. -/
theorem Memory.readWord_writeWord_same {m : Memory} (a : Nat) (v : Word) (h : m.wf = true) :
    (m.writeWord a v).readWord a = v := by
  have r := fun i (hi : i < 8) => Memory.read_writeWord_at a i v hi h
  have r0 := r 0 (by omega)
  simp only [Nat.add_zero] at r0
  rw [Memory.readWord, r0, r 1 (by omega), r 2 (by omega), r 3 (by omega), r 4 (by omega), r 5 (by omega),
    r 6 (by omega), r 7 (by omega), wordOfBytes_bytes]

/-- A word write leaves a word that shares no byte with it alone. -/
theorem Memory.readWord_writeWord_other {x a : Nat} (m : Memory) (v : Word) (h : x + 8 ≤ a ∨ a + 8 ≤ x) :
    (m.writeWord a v).readWord x = m.readWord x := by
  have r := fun i (hi : i < 8) => Memory.read_writeWord_other (x := x + i) (a := a) m v (by omega)
  have r0 := r 0 (by omega)
  simp only [Nat.add_zero] at r0
  simp only [Memory.readWord, r0, r 1 (by omega), r 2 (by omega), r 3 (by omega), r 4 (by omega), r 5 (by omega),
    r 6 (by omega), r 7 (by omega)]

end Sys2Proof.Machine
end

