-- ==== Sys2Proof/Laws/PerInstr.lean ====
section
/-! SUPPORT. One fact about every instruction as syntax: its word carries its opcode in the top byte and zeros in the
must-be-zero bits of its format (spec/30_encoding.md R59 to R67). -/

namespace Sys2Proof.Laws

open Sys2Proof

/-- The opcode of each instruction (R67). -/
def opcodeOf : Instr → BitVec 8
  | .add _ _ _ => 0x01#8
  | .sub _ _ _ => 0x02#8
  | .mul _ _ _ => 0x03#8
  | .div _ _ _ => 0x04#8
  | .and _ _ _ => 0x05#8
  | .or _ _ _ => 0x06#8
  | .xor _ _ _ => 0x07#8
  | .sll _ _ _ => 0x08#8
  | .srl _ _ _ => 0x09#8
  | .sra _ _ _ => 0x0A#8
  | .cmp _ _ _ => 0x0B#8
  | .addi _ _ _ => 0x10#8
  | .subi _ _ _ => 0x11#8
  | .andi _ _ _ => 0x12#8
  | .ori _ _ _ => 0x13#8
  | .xori _ _ _ => 0x14#8
  | .li _ _ => 0x15#8
  | .load _ _ => 0x20#8
  | .store _ _ => 0x21#8
  | .jmp _ => 0x30#8
  | .jr _ => 0x31#8
  | .beq _ _ _ => 0x32#8
  | .bne _ _ _ => 0x33#8
  | .halt => 0xF0#8

/-- The must-be-zero mask of each instruction's format (R59 to R66). -/
def maskOf : Instr → Word
  | .add _ _ _ => mbzR
  | .sub _ _ _ => mbzR
  | .mul _ _ _ => mbzR
  | .div _ _ _ => mbzR
  | .and _ _ _ => mbzR
  | .or _ _ _ => mbzR
  | .xor _ _ _ => mbzR
  | .sll _ _ _ => mbzR
  | .srl _ _ _ => mbzR
  | .sra _ _ _ => mbzR
  | .cmp _ _ _ => mbzR
  | .addi _ _ _ => mbzI
  | .subi _ _ _ => mbzI
  | .andi _ _ _ => mbzI
  | .ori _ _ _ => mbzI
  | .xori _ _ _ => mbzI
  | .li _ _ => mbzL
  | .load _ _ => mbzM
  | .store _ _ => mbzM
  | .jmp _ => mbzJ
  | .jr _ => mbzX
  | .beq _ _ _ => mbzB
  | .bne _ _ _ => mbzB
  | .halt => mbzS

/-- The word of `i` has `i`'s opcode, and no must-be-zero bit set. -/
def EncodedFields.Statement (i : Instr) : Prop :=
  opField (encode i) = opcodeOf i ∧ encode i &&& maskOf i = 0#64

theorem EncodedFields.add (rd rs1 rs2 : Reg) : EncodedFields.Statement (.add rd rs1 rs2) :=
  ⟨opField_encodeR .., mbz_encodeR ..⟩

theorem EncodedFields.sub (rd rs1 rs2 : Reg) : EncodedFields.Statement (.sub rd rs1 rs2) :=
  ⟨opField_encodeR .., mbz_encodeR ..⟩

theorem EncodedFields.mul (rd rs1 rs2 : Reg) : EncodedFields.Statement (.mul rd rs1 rs2) :=
  ⟨opField_encodeR .., mbz_encodeR ..⟩

theorem EncodedFields.div (rd rs1 rs2 : Reg) : EncodedFields.Statement (.div rd rs1 rs2) :=
  ⟨opField_encodeR .., mbz_encodeR ..⟩

theorem EncodedFields.and (rd rs1 rs2 : Reg) : EncodedFields.Statement (.and rd rs1 rs2) :=
  ⟨opField_encodeR .., mbz_encodeR ..⟩

theorem EncodedFields.or (rd rs1 rs2 : Reg) : EncodedFields.Statement (.or rd rs1 rs2) :=
  ⟨opField_encodeR .., mbz_encodeR ..⟩

theorem EncodedFields.xor (rd rs1 rs2 : Reg) : EncodedFields.Statement (.xor rd rs1 rs2) :=
  ⟨opField_encodeR .., mbz_encodeR ..⟩

theorem EncodedFields.sll (rd rs1 rs2 : Reg) : EncodedFields.Statement (.sll rd rs1 rs2) :=
  ⟨opField_encodeR .., mbz_encodeR ..⟩

theorem EncodedFields.srl (rd rs1 rs2 : Reg) : EncodedFields.Statement (.srl rd rs1 rs2) :=
  ⟨opField_encodeR .., mbz_encodeR ..⟩

theorem EncodedFields.sra (rd rs1 rs2 : Reg) : EncodedFields.Statement (.sra rd rs1 rs2) :=
  ⟨opField_encodeR .., mbz_encodeR ..⟩

theorem EncodedFields.cmp (rd rs1 rs2 : Reg) : EncodedFields.Statement (.cmp rd rs1 rs2) :=
  ⟨opField_encodeR .., mbz_encodeR ..⟩

theorem EncodedFields.addi (rd rs1 : Reg) (imm : Word) : EncodedFields.Statement (.addi rd rs1 imm) :=
  ⟨opField_encodeI .., mbz_encodeI ..⟩

theorem EncodedFields.subi (rd rs1 : Reg) (imm : Word) : EncodedFields.Statement (.subi rd rs1 imm) :=
  ⟨opField_encodeI .., mbz_encodeI ..⟩

theorem EncodedFields.andi (rd rs1 : Reg) (imm : Word) : EncodedFields.Statement (.andi rd rs1 imm) :=
  ⟨opField_encodeI .., mbz_encodeI ..⟩

theorem EncodedFields.ori (rd rs1 : Reg) (imm : Word) : EncodedFields.Statement (.ori rd rs1 imm) :=
  ⟨opField_encodeI .., mbz_encodeI ..⟩

theorem EncodedFields.xori (rd rs1 : Reg) (imm : Word) : EncodedFields.Statement (.xori rd rs1 imm) :=
  ⟨opField_encodeI .., mbz_encodeI ..⟩

theorem EncodedFields.li (rd : Reg) (imm : Word) : EncodedFields.Statement (.li rd imm) :=
  ⟨opField_encodeL .., mbz_encodeL ..⟩

theorem EncodedFields.load (r : Reg) (addr : Word) : EncodedFields.Statement (.load r addr) :=
  ⟨opField_encodeM .., mbzM_zero⟩

theorem EncodedFields.store (r : Reg) (addr : Word) : EncodedFields.Statement (.store r addr) :=
  ⟨opField_encodeM .., mbzM_zero⟩

theorem EncodedFields.jmp (addr : Word) : EncodedFields.Statement (.jmp addr) :=
  ⟨opField_encodeJ .., mbz_encodeJ ..⟩

theorem EncodedFields.jr (rs1 : Reg) : EncodedFields.Statement (.jr rs1) :=
  ⟨opField_encodeX .., mbz_encodeX ..⟩

theorem EncodedFields.beq (rs1 rs2 : Reg) (off : Word) : EncodedFields.Statement (.beq rs1 rs2 off) :=
  ⟨opField_encodeB .., mbz_encodeB ..⟩

theorem EncodedFields.bne (rs1 rs2 : Reg) (off : Word) : EncodedFields.Statement (.bne rs1 rs2 off) :=
  ⟨opField_encodeB .., mbz_encodeB ..⟩

theorem EncodedFields.halt : EncodedFields.Statement (.halt) :=
  ⟨opField_encodeS .., mbz_encodeS ..⟩

end Sys2Proof.Laws
end

