-- ==== Sys2Proof/Tests/Slice0.lean ====
section
/-! SUPPORT. Tests of the model on the vectors of spec/95_test_vectors.md (named in each docstring), the checks of
WellFormed, and a witness for the hypotheses of every obligation that has some. -/

namespace Sys2Proof.Tests

open Sys2Proof Sys2Proof.Machine Sys2Proof.Claims

/-! ### Helpers -/

/-- The state after reset with `w` at the fetch PC `p` and the registers of the list set. -/
def codeAt (p w : Word) (rs : List (Reg × Word)) : State :=
  rs.foldl (fun s e => s.setReg e.1 e.2) ((State.reset.setPc p).withFetchWord 64 w.toNat)

/-- The same at address 0. -/
def code (w : Word) (rs : List (Reg × Word)) : State := codeAt 0#64 w rs

/-- What `f` reads from the next state, if there is one. -/
def after {α : Type} (o : StepResult) (f : State → α) : Option α :=
  match o with
  | .next t => some (f t)
  | .fault _ => none
  | .refused _ => none

/-- A decidable property of the next state, as a witness. -/
theorem exists_next {o : StepResult} {P : State → Prop} [DecidablePred P]
    (h : after o (fun t => decide (P t)) = some true) : ∃ t, o = .next t ∧ P t := by
  cases o with
  | next t => exact ⟨t, rfl, by simpa [after] using h⟩
  | fault _ => cases h
  | refused _ => cases h

/-- `w` decodes to `i`, as a word and as the host gives it, and `i` encodes to `w`. -/
abbrev Codes (w : Word) (i : Instr) : Prop :=
  decode w = .ok i ∧ encode i = w ∧ decodeTableWord 64 w.toNat = some i

/-- The record a halting step leaves, and its pc. -/
def record (t : State) : (Bool × BitVec 3 × BitVec 3) × List Word :=
  ((t.running, t.haltCause, t.faultSub), [t.faultPc, t.faultWord, t.faultAddr, t.pc])

/-! ### WellFormed refuses (spec/30_encoding.md R76) -/

theorem test_addi_range : Instr.wellFormed (.addi 1 2 0x80000000#64) = false ∧
    Instr.wellFormed (.addi 1 2 0xFFFFFFFF7FFFFFFF#64) = false ∧
    Instr.wellFormed (.addi 1 2 0x7FFFFFFF#64) = true ∧ Instr.wellFormed (.addi 1 2 0xFFFFFFFF80000000#64) = true := by decide
theorem test_subi_range : Instr.wellFormed (.subi 1 2 0x80000000#64) = false ∧
    Instr.wellFormed (.subi 1 2 0xFFFFFFFF7FFFFFFF#64) = false ∧
    Instr.wellFormed (.subi 1 2 0x7FFFFFFF#64) = true ∧ Instr.wellFormed (.subi 1 2 0xFFFFFFFF80000000#64) = true := by decide
theorem test_andi_range : Instr.wellFormed (.andi 1 2 0x80000000#64) = false ∧
    Instr.wellFormed (.andi 1 2 0xFFFFFFFF7FFFFFFF#64) = false ∧
    Instr.wellFormed (.andi 1 2 0x7FFFFFFF#64) = true ∧ Instr.wellFormed (.andi 1 2 0xFFFFFFFF80000000#64) = true := by decide
theorem test_ori_range : Instr.wellFormed (.ori 1 2 0x80000000#64) = false ∧
    Instr.wellFormed (.ori 1 2 0xFFFFFFFF7FFFFFFF#64) = false ∧
    Instr.wellFormed (.ori 1 2 0x7FFFFFFF#64) = true ∧ Instr.wellFormed (.ori 1 2 0xFFFFFFFF80000000#64) = true := by decide
theorem test_xori_range : Instr.wellFormed (.xori 1 2 0x80000000#64) = false ∧
    Instr.wellFormed (.xori 1 2 0xFFFFFFFF7FFFFFFF#64) = false ∧
    Instr.wellFormed (.xori 1 2 0x7FFFFFFF#64) = true ∧ Instr.wellFormed (.xori 1 2 0xFFFFFFFF80000000#64) = true := by decide
theorem test_li_range : Instr.wellFormed (.li 1 0x80000000#64) = false ∧
    Instr.wellFormed (.li 1 0xFFFFFFFF7FFFFFFF#64) = false ∧
    Instr.wellFormed (.li 1 0x7FFFFFFF#64) = true ∧ Instr.wellFormed (.li 1 0xFFFFFFFF80000000#64) = true := by decide
theorem test_beq_range : Instr.wellFormed (.beq 1 2 0x80000000#64) = false ∧
    Instr.wellFormed (.beq 1 2 0xFFFFFFFF7FFFFFFF#64) = false ∧
    Instr.wellFormed (.beq 1 2 0x7FFFFFFF#64) = true ∧ Instr.wellFormed (.beq 1 2 0xFFFFFFFF80000000#64) = true := by decide
theorem test_bne_range : Instr.wellFormed (.bne 1 2 0x80000000#64) = false ∧
    Instr.wellFormed (.bne 1 2 0xFFFFFFFF7FFFFFFF#64) = false ∧
    Instr.wellFormed (.bne 1 2 0x7FFFFFFF#64) = true ∧ Instr.wellFormed (.bne 1 2 0xFFFFFFFF80000000#64) = true := by decide
theorem test_load_range : Instr.wellFormed (.load 1 0x1000000000000#64) = false ∧
    Instr.wellFormed (.load 1 0xFFFFFFFFFFFF#64) = true := by decide
theorem test_store_range : Instr.wellFormed (.store 1 0x1000000000000#64) = false ∧
    Instr.wellFormed (.store 1 0xFFFFFFFFFFFF#64) = true := by decide
theorem test_jmp_range : Instr.wellFormed (.jmp 0x1000000000000#64) = false ∧
    Instr.wellFormed (.jmp 0xFFFFFFFFFFFF#64) = true := by decide

/-! ### Decoding: a word of every instruction (spec/95_test_vectors.md, spec/30_encoding.md R67, R80) -/

theorem test_decode_add : Codes 0x0103010200000000#64 (.add 3 1 2) := by decide
theorem test_decode_sub : Codes 0x0203010200000000#64 (.sub 3 1 2) := by decide
theorem test_decode_mul : Codes 0x0303010200000000#64 (.mul 3 1 2) := by decide
theorem test_decode_div : Codes 0x0403020100000000#64 (.div 3 2 1) := by decide
theorem test_decode_and : Codes 0x0503010200000000#64 (.and 3 1 2) := by decide
theorem test_decode_or : Codes 0x0603010200000000#64 (.or 3 1 2) := by decide
theorem test_decode_xor : Codes 0x0703010100000000#64 (.xor 3 1 1) := by decide
theorem test_decode_sll : Codes 0x0801010200000000#64 (.sll 1 1 2) := by decide
theorem test_decode_srl : Codes 0x0909060700000000#64 (.srl 9 6 7) := by decide
theorem test_decode_sra : Codes 0x0A08060700000000#64 (.sra 8 6 7) := by decide
theorem test_decode_cmp : Codes 0x0B07010200000000#64 (.cmp 7 1 2) := by decide
theorem test_decode_addi : Codes 0x10010200FFFFFFFF#64 (.addi 1 2 (-1)) := by decide
theorem test_decode_subi : Codes 0x1101020080000000#64 (.subi 1 2 0xFFFFFFFF80000000#64) := by decide
theorem test_decode_andi : Codes 0x12010200FFFFFF00#64 (.andi 1 2 (-256)) := by decide
theorem test_decode_ori : Codes 0x1301000080000000#64 (.ori 1 0 0xFFFFFFFF80000000#64) := by decide
theorem test_decode_xori : Codes 0x14010200FFFFFFFF#64 (.xori 1 2 (-1)) := by decide
theorem test_decode_li : Codes 0x150100007FFFFFFF#64 (.li 1 0x7FFFFFFF#64) := by decide
theorem test_decode_load : Codes 0x2004000003FFFFF8#64 (.load 4 0x3FFFFF8#64) := by decide
theorem test_decode_store : Codes 0x2101FFFFFFFFFFF8#64 (.store 1 0xFFFFFFFFFFF8#64) := by decide
theorem test_decode_jmp : Codes 0x300000000000002C#64 (.jmp 44) := by decide
theorem test_decode_jr : Codes 0x3100050000000000#64 (.jr 5) := by decide
theorem test_decode_beq : Codes 0x32000101FFFFFFE0#64 (.beq 1 1 (-32)) := by decide
theorem test_decode_bne : Codes 0x33000203FFFFFFE8#64 (.bne 2 3 (-24)) := by decide
theorem test_decode_halt : Codes 0xF000000000000000#64 (.halt) := by decide

/-- DC1 to DC3: unassigned opcodes. -/
theorem test_decode_unknown : decode 0x0000000000000000#64 = .error .unknownOpcode ∧
    decode 0x0C00000000000000#64 = .error .unknownOpcode ∧ decode 0xFF00000000000000#64 = .error .unknownOpcode := by
  decide

/-- DC4, DC5, DC11, DC12, DC13: a register field of 32 or more, before the must-be-zero bits. -/
theorem test_decode_register : decode 0x0120010200000000#64 = .error .registerField ∧
    decode 0x010301FF00000000#64 = .error .registerField ∧ decode 0x0B28010200000000#64 = .error .registerField ∧
    decode 0x2020000000000100#64 = .error .registerField ∧ decode 0x1001210100000000#64 = .error .registerField := by
  decide

/-- DC6 to DC10, DC14: a must-be-zero bit. -/
theorem test_decode_zero : decode 0x0103010200000001#64 = .error .mustBeZero ∧
    decode 0x1501000100000005#64 = .error .mustBeZero ∧ decode 0x3001000000000028#64 = .error .mustBeZero ∧
    decode 0x3100050000000001#64 = .error .mustBeZero ∧ decode 0xF000000000000001#64 = .error .mustBeZero ∧
    decode 0x3201010200000010#64 = .error .mustBeZero := by
  decide

/-- R57: fewer than eight bytes are no instruction. -/
theorem test_decode_short : decodeBytes [0#8, 0#8, 0#8, 0#8, 0#8, 0#8, 0#8] = .error .tooFewBytes := by decide

/-! ### Register-register (spec/95_test_vectors.md 2.1) -/

/-- A2. -/
theorem test_add_wraps : after (step (code 0x0103010200000000#64 [(1, 0xFFFFFFFFFFFFFFFF#64), (2, 1#64)]))
    (fun t => (t.reg 3, t.flagC, t.flagV, t.pc)) = some (0#64, false, false, 8#64) := by decide

/-- A4. -/
theorem test_add_same_register : after (step (code 0x0101010100000000#64 [(1, 0x15#64)]))
    (fun t => (t.reg 1)) = some 0x2A#64 := by decide

/-- A5. -/
theorem test_sub_wraps : after (step (code 0x0203010200000000#64 [(1, 0#64), (2, 1#64)]))
    (fun t => (t.reg 3, t.reg 1)) = some (0xFFFFFFFFFFFFFFFF#64, 0#64) := by decide

/-- A6. -/
theorem test_sub_signed_edge : after (step (code 0x0203010200000000#64 [(1, 0x8000000000000000#64), (2, 1#64)]))
    (fun t => (t.reg 3)) = some 0x7FFFFFFFFFFFFFFF#64 := by decide

/-- A7. -/
theorem test_mul_low_half : after (step (code 0x0303010200000000#64 [(1, 0x100000000#64), (2, 0x100000000#64)]))
    (fun t => (t.reg 3)) = some 0#64 := by decide

/-- A9. -/
theorem test_mul_negative : after (step (code 0x0303010200000000#64 [(1, 0xFFFFFFFFFFFFFFFD#64), (2, 7#64)]))
    (fun t => (t.reg 3)) = some 0xFFFFFFFFFFFFFFEB#64 := by decide

/-- A11, A12, A13, A16: toward zero, and the one overflowing quotient. -/
theorem test_div_quotients :
    after (step (code 0x0403010200000000#64 [(1, -7), (2, 2)])) (fun t => t.reg 3) = some (-3) ∧
    after (step (code 0x0403010200000000#64 [(1, 7), (2, -2)])) (fun t => t.reg 3) = some (-3) ∧
    after (step (code 0x0403010200000000#64 [(1, -7), (2, -2)])) (fun t => t.reg 3) = some 3 ∧
    after (step (code 0x0403010200000000#64 [(1, 0x8000000000000000#64), (2, -1)])) (fun t => (t.reg 3, t.running)) =
      some (0x8000000000000000#64, true) := by decide

/-- A17. -/
theorem test_div_by_zero : after (step (code 0x0403010200000000#64 [(1, 5#64), (3, 99#64)]))
    (fun t => (t.reg 3, record t)) = some (99#64, ((false, 2#3, 0#3), [0#64, 0x0403010200000000#64, 0#64, 8#64])) := by decide

/-- A19. -/
theorem test_and : after (step (code 0x0503010200000000#64 [(1, 0xF0F0#64), (2, 0xFF00#64)]))
    (fun t => (t.reg 3)) = some 0xF000#64 := by decide

/-- A20. -/
theorem test_or : after (step (code 0x0603010200000000#64 [(1, 0xF0F0#64), (2, 0x0F0F#64)]))
    (fun t => (t.reg 3)) = some 0xFFFF#64 := by decide

/-- R94, the example. -/
theorem test_xor : after (step (code 0x0703010200000000#64 [(1, 0xFF#64), (2, 0x0F#64)]))
    (fun t => (t.reg 3)) = some 0xF0#64 := by decide

/-- A24. -/
theorem test_sll_amount_65 : after (step (code 0x0803010200000000#64 [(1, 1#64), (2, 65#64)]))
    (fun t => (t.reg 3)) = some 2#64 := by decide

/-- A25. -/
theorem test_sll_amount_all_ones : after (step (code 0x0803010200000000#64 [(1, 1#64), (2, 0xFFFFFFFFFFFFFFFF#64)]))
    (fun t => (t.reg 3)) = some 0x8000000000000000#64 := by decide

/-- A26. -/
theorem test_srl_fills_zero : after (step (code 0x0903010200000000#64 [(1, 0x8000000000000000#64), (2, 63#64)]))
    (fun t => (t.reg 3)) = some 1#64 := by decide

/-- A29. -/
theorem test_sra_rounds_down : after (step (code 0x0A03010200000000#64 [(1, -7), (2, 1#64)]))
    (fun t => (t.reg 3)) = some (-4) := by decide

/-- A30. -/
theorem test_sra_amount_64 : after (step (code 0x0A03010200000000#64 [(1, -7), (2, 64#64)]))
    (fun t => (t.reg 3)) = some (-7) := by decide

/-- A34. -/
theorem test_cmp_signed : after (step (code 0x0B00010200000000#64 [(1, 0x8000000000000000#64), (2, 1#64)]))
    (fun t => (t.flagZ, t.flagN, t.flagC, t.flagV)) = some (false, true, false, false) := by decide

/-- A36, with equal operands as in A31. -/
theorem test_cmp_writes_no_register : after (step (code 0x0B07010200000000#64 [(1, 5#64), (2, 5#64), (7, 44#64)]))
    (fun t => (t.flagZ, t.flagN, t.reg 7)) = some (true, false, 44#64) := by decide

/-! ### Register-immediate (2.2) -/

/-- I1. -/
theorem test_addi_negative : after (step (code 0x10010200FFFFFFFF#64 []))
    (fun t => (t.reg 1)) = some 0xFFFFFFFFFFFFFFFF#64 := by decide

/-- I13. -/
theorem test_addi_no_op : after (step (code 0x1000000000000000#64 [(0, 3#64)]))
    (fun t => (t.reg 0, t.pc)) = some (3#64, 8#64) := by decide

/-- I3. -/
theorem test_subi : after (step (code 0x1102020000000001#64 [(2, 5#64)]))
    (fun t => (t.reg 2)) = some 4#64 := by decide

/-- I4. -/
theorem test_subi_lowest : after (step (code 0x1101020080000000#64 []))
    (fun t => (t.reg 1)) = some 0x80000000#64 := by decide

/-- I5. -/
theorem test_andi_zero_extends_low : after (step (code 0x12010200000000FF#64 [(2, 0x123456789ABCDEF0#64)]))
    (fun t => (t.reg 1)) = some 0xF0#64 := by decide

/-- I6. -/
theorem test_andi_sign_extends : after (step (code 0x12010200FFFFFF00#64 [(2, 0x123456789ABCDEF0#64)]))
    (fun t => (t.reg 1)) = some 0x123456789ABCDE00#64 := by decide

/-- I7. -/
theorem test_ori_sign_extends : after (step (code 0x1301000080000000#64 []))
    (fun t => (t.reg 1)) = some 0xFFFFFFFF80000000#64 := by decide

/-- I9. -/
theorem test_xori_complements : after (step (code 0x14010200FFFFFFFF#64 [(2, 0xFF#64)]))
    (fun t => (t.reg 1)) = some 0xFFFFFFFFFFFFFF00#64 := by decide

/-- I11. -/
theorem test_li_highest : after (step (code 0x150100007FFFFFFF#64 []))
    (fun t => (t.reg 1)) = some 0x7FFFFFFF#64 := by decide

/-- I12. -/
theorem test_li_lowest : after (step (code 0x1501000080000000#64 []))
    (fun t => (t.reg 1)) = some 0xFFFFFFFF80000000#64 := by decide

/-! ### Load and store (2.3) -/

/-- M1, M2: little-endian, and the last word of memory. -/
theorem test_load_words :
    after (step ((code 0x2004000000000100#64 []).setMem
      ((code 0x2004000000000100#64 []).mem.writeBytes 0x100
        [0x88#8, 0x77#8, 0x66#8, 0x55#8, 0x44#8, 0x33#8, 0x22#8, 0x11#8]))) (fun t => t.reg 4) =
      some 0x1122334455667788#64 ∧
    after (step ((code 0x2004000003FFFFF8#64 []).setMem ((code 0x2004000003FFFFF8#64 []).mem.write 0x3FFFFF8 7#8)))
      (fun t => t.reg 4) = some 7#64 := by decide

/-- M3, M4, M5, M10, M11: the faults, the input device and its wait. -/
theorem test_load_faults_and_input :
    after (step (code 0x2004000004000000#64 [])) record =
      some ((false, 3#3, 3#3), [0#64, 0x2004000004000000#64, 0x4000000#64, 8#64]) ∧
    after (step (code 0x2004000000000104#64 [])) record =
      some ((false, 3#3, 4#3), [0#64, 0x2004000000000104#64, 0x104#64, 8#64]) ∧
    after (step (code 0x2004FFFFFFFFFFF8#64 [])) record =
      some ((false, 3#3, 3#3), [0#64, 0x2004FFFFFFFFFFF8#64, 0xFFFFFFFFFFF8#64, 8#64]) ∧
    after (step ((code 0x2001FFFFFFFFFFF0#64 []).setInput [41#64])) (fun t => (t.reg 1, t.input, t.pc)) =
      some (41#64, [], 8#64) ∧
    after (step (code 0x2001FFFFFFFFFFF0#64 [])) id = some (code 0x2001FFFFFFFFFFF0#64 []) := by decide

/-- M9, M12: a word stored little-endian, and an output event. -/
theorem test_store_writes :
    after (step (code 0x2101000000000100#64 [(1, 15#64)]))
      (fun t => ((List.range 9).map fun i => t.readByte (0x100 + i), t.pc)) =
      some ([15#8, 0#8, 0#8, 0#8, 0#8, 0#8, 0#8, 0#8, 0#8], 8#64) ∧
    after (step (code 0x2101FFFFFFFFFFF8#64 [(1, 42#64)]))
      (fun t => (t.output, decide (t.mem = (code 0x2101FFFFFFFFFFF8#64 []).mem))) = some ([42#64], true) := by decide

/-- M6, M7, M8: the faults, which write no byte. -/
theorem test_store_faults :
    after (step (code 0x2101000004000000#64 [(1, 5#64)])) record =
      some ((false, 3#3, 5#3), [0#64, 0x2101000004000000#64, 0x4000000#64, 8#64]) ∧
    after (step (code 0x2101000000000101#64 [(1, 5#64)])) record =
      some ((false, 3#3, 6#3), [0#64, 0x2101000000000101#64, 0x101#64, 8#64]) ∧
    after (step (code 0x2101FFFFFFFFFFF0#64 [(1, 5#64)])) record =
      some ((false, 3#3, 5#3), [0#64, 0x2101FFFFFFFFFFF0#64, 0xFFFFFFFFFFF0#64, 8#64]) ∧
    after (step (code 0x2101000004000000#64 [(1, 5#64)])) (fun t => t.mem) = some (code 0x2101000004000000#64 []).mem ∧
    after (step (code 0x2101000000000101#64 [(1, 5#64)])) (fun t => t.mem) = some (code 0x2101000000000101#64 []).mem :=
  ⟨by decide, by decide, by decide, by decide, by decide⟩

/-! ### Control flow and HALT (2.4, 2.5) -/

/-- B2: a bad target is accepted. -/
theorem test_jmp : after (step (code 0x300000000000002C#64 []))
    (fun t => (t.pc, t.running)) = some (0x2C#64, true) := by decide

/-- B4. -/
theorem test_jr : after (step (code 0x3100050000000000#64 [(5, 0xFFFFFFFFFFFFFFF8#64)]))
    (fun t => (t.pc, t.running)) = some (0xFFFFFFFFFFFFFFF8#64, true) := by decide

/-- B5, B6, B8. -/
theorem test_beq :
    after (step (codeAt 0x10#64 0x3200010200000010#64 [(1, 1#64), (2, 1#64)])) (fun t => t.pc) = some 0x28#64 ∧
    after (step (codeAt 0x10#64 0x3200010200000010#64 [(1, 1#64), (2, 2#64)])) (fun t => t.pc) = some 0x18#64 ∧
    after (step (codeAt 0x10#64 0x32000101FFFFFFE0#64 [])) (fun t => t.pc) = some 0xFFFFFFFFFFFFFFF8#64 := by decide

/-- B9, B10. -/
theorem test_bne :
    after (step (codeAt 0x28#64 0x33000203FFFFFFE8#64 [(2, 4#64)])) (fun t => t.pc) = some 0x18#64 ∧
    after (step (codeAt 0x28#64 0x33000203FFFFFFE8#64 [])) (fun t => t.pc) = some 0x30#64 := by decide

/-- H1. -/
theorem test_halt : after (step (codeAt 0x18#64 0xF000000000000000#64 []))
    (fun t => record t) = some ((false, 1#3, 0#3), [0x18#64, 0xF000000000000000#64, 0#64, 0x20#64]) := by decide

/-! ### Fetch and decode faults, reset (3, 4) -/

/-- DC1, DC13, DC6. -/
theorem test_decode_faults :
    after (step (code 0#64 [])) record = some ((false, 4#3, 0#3), [0#64, 0#64, 0#64, 8#64]) ∧
    after (step (code 0x1001210100000000#64 [])) record =
      some ((false, 5#3, 1#3), [0#64, 0x1001210100000000#64, 0#64, 8#64]) ∧
    after (step (code 0x0103010200000001#64 [])) record =
      some ((false, 5#3, 2#3), [0#64, 0x0103010200000001#64, 0#64, 8#64]) := by decide

/-- F1, F2, and a PC that is both misaligned and out of range (R121). -/
theorem test_fetch_faults :
    after (step (State.reset.assertReset 0x4000000#64)) record =
      some ((false, 3#3, 1#3), [0x4000000#64, 0#64, 0x4000000#64, 0x4000000#64]) ∧
    after (step (State.reset.assertReset 4#64)) record = some ((false, 3#3, 2#3), [4#64, 0#64, 4#64, 4#64]) ∧
    after (step (State.reset.assertReset 0x4000004#64)) (fun t => t.faultSub) = some 2#3 := by decide

/-- F3: the advance past the last word does not fault by itself. -/
theorem test_last_word :
    after (step (codeAt 0x3FFFFF8#64 0xF000000000000000#64 [])) (fun t => (t.haltCause, t.pc)) =
      some (1#3, 0x4000000#64) := by decide

/-- F4: a Halted core has no step. -/
theorem test_halted_has_no_step : step ({ State.reset with running := false } : State) = .fault .halted := rfl

/-! ### The loader, the host and the assembler -/

/-- R131, R132: a packed header, one code byte and one data byte. -/
theorem test_parse_image :
    parseImage 0x11223344#32 0x0102#16 16
      [0x44#8, 0x33#8, 0x22#8, 0x11#8, 0x02#8, 0x01#8, 1#8, 0#8, 0#8, 0#8, 0#8, 0#8, 0#8, 0#8,
       1#8, 0#8, 0#8, 0#8, 0#8, 0#8, 0#8, 0#8, 8#8, 0#8, 0#8, 0#8, 0#8, 0#8, 0#8, 0#8, 0xAA#8, 0xBB#8] =
      some { entryPoint := 8#64, code := [0xAA#8], data := [0xBB#8] } := by decide

/-- R131, R134: the start of a run. -/
theorem test_boot :
    (State.reset.boot { entryPoint := 8#64, code := [0xAA#8, 0#8], data := [0xBB#8] }).mem = [(0, 0xAA#8), (2, 0xBB#8)] ∧
    (State.reset.boot { entryPoint := 8#64, code := [0xAA#8, 0#8], data := [0xBB#8] }).pc = 8#64 := by decide

/-- R77 to R81, R83: lines of program P3, a loop label, a comment, a relocation and the no-op. -/
theorem test_assemble_lines :
    assemble ["loop:".toList, "ADD R1,R1,R2".toList, "SUBI R2,R2,1 ; count".toList, "".toList,
      "BNE R2 R3 loop".toList, "JMP foo".toList, "ADDI R0, R0, 0".toList] =
      .ok { words := [0x0101010200000000#64, 0x1102020000000001#64, 0x33000203FFFFFFE8#64, 0x3000000000000000#64,
              0x1000000000000000#64]
            labels := [("loop".toList, 0)]
            relocations := [{ offset := 24, symbol := "foo".toList }] } := by decide

/-- R78, R79, R81, R82: every error with its line, and no output. -/
theorem test_assemble_errors :
    assemble ["a:".toList, "a:".toList, "LI R32,1".toList, "NOP".toList, "BEQ R1,R2,far".toList, "HALT R1".toList,
      "LI R1,2147483648".toList, "LI R1,5 ?".toList] =
      .error [⟨2, .duplicateLabel⟩, ⟨3, .invalidOperand⟩, ⟨4, .unknownMnemonic⟩, ⟨5, .invalidOperand⟩,
        ⟨6, .syntaxError⟩, ⟨7, .invalidOperand⟩, ⟨8, .lexicalError⟩] := by decide

/-- R82: every error of a line, from left to right, and the kinds log entry 15 chooses. -/
theorem test_assemble_errors_of_one_line :
    assemble ["LI R32,5 ?".toList, "ADD R40 R1".toList, "a: LI 12ab,R1 R2".toList, "a:".toList, "NOP R99".toList] =
      .error [⟨1, .lexicalError⟩, ⟨1, .invalidOperand⟩, ⟨2, .invalidOperand⟩, ⟨2, .invalidOperand⟩, ⟨3, .syntaxError⟩,
        ⟨3, .invalidOperand⟩, ⟨3, .invalidOperand⟩, ⟨3, .syntaxError⟩, ⟨4, .duplicateLabel⟩,
        ⟨5, .unknownMnemonic⟩] := by decide

/-- Log entry 15: commas that separate nothing, and a line of them alone. -/
theorem test_assemble_loose_commas :
    assemble [",LI ,R1,,5,".toList, " , ".toList] =
      .ok { words := [0x1501000000000005#64], labels := [], relocations := [] } := by decide

/-- Log entry 15: a colon inside the first token, and a label at the end of a unit. -/
theorem test_assemble_colons :
    assemble ["loop:ADD R1,R2,R3".toList] = .error [⟨1, .unknownMnemonic⟩] ∧
    assemble ["HALT".toList, "end:".toList] =
      .ok { words := [0xF000000000000000#64], labels := [("end".toList, 8)], relocations := [] } := by decide

/-- S5: the patch of JMP foo at the source's address 24. -/
theorem test_patch : patchInstruction 0x3000000000000000#64 24 = some 0x3000000000000018#64 := by decide

/-! ### Witnesses: a state and operands that meet the hypotheses of each obligation, clause by clause -/

/-- A running state that fetches and decodes `i` from `w` at address 0. -/
theorem runs_code {w : Word} {rs : List (Reg × Word)} {i : Instr}
    (h : (code w rs).fetch (code w rs).pc = .ok w ∧ decode w = .ok i) : Runs (code w rs) i := ⟨w, h⟩

theorem witness_DecodeEncodeRoundTrip :
    Instr.wellFormed (.addi 31 0 0xFFFFFFFF80000000#64) = true ∧ Instr.wellFormed (.store 31 0xFFFFFFFFFFFF#64) = true ∧
    decode 0x33001F1F7FFFFFFF#64 = .ok (.bne 31 31 0x7FFFFFFF#64) := by
  decide

/-- Unassigned opcodes at the ends of their ranges. -/
theorem witness_BadWordsHaltTheCore_opcode :
    (code 0x0C00000000000000#64 []).running = true ∧
    (code 0x0C00000000000000#64 []).fetch 0#64 = .ok 0x0C00000000000000#64 ∧
    Unassigned (fieldAt 0x0C00000000000000#64 56) ∧ Unassigned (fieldAt 0x0000000000000000#64 56) ∧
    Unassigned (fieldAt 0xEFFFFFFFFFFFFFFF#64 56) ∧ Unassigned (fieldAt 0xF100000000000000#64 56) :=
  ⟨rfl, by decide, by decide, by decide, by decide, by decide⟩

/-- A register field of 32 in the last place. -/
theorem witness_BadWordsHaltTheCore_register :
    (code 0x0103012000000000#64 []).fetch 0#64 = .ok 0x0103012000000000#64 ∧
    ¬ Unassigned (fieldAt 0x0103012000000000#64 56) ∧
    ∃ k ∈ (formatOf (fieldAt 0x0103012000000000#64 56)).1, 32 ≤ fieldAt 0x0103012000000000#64 k :=
  ⟨by decide, by decide, by decide⟩

/-- Register fields of 31 and one must-be-zero bit. -/
theorem witness_BadWordsHaltTheCore_zero :
    (code 0x32801F1F00000000#64 []).fetch 0#64 = .ok 0x32801F1F00000000#64 ∧
    ¬ Unassigned (fieldAt 0x32801F1F00000000#64 56) ∧
    (∀ k ∈ (formatOf (fieldAt 0x32801F1F00000000#64 56)).1, fieldAt 0x32801F1F00000000#64 k < 32) ∧
    (0x32801F1F00000000#64 : Word).toNat &&& (formatOf (fieldAt 0x32801F1F00000000#64 56)).2 ≠ 0 :=
  ⟨by decide, by decide, by decide, by decide⟩

/-- A word that passes every check, with every operand at its highest value. -/
theorem witness_BadWordsHaltTheCore_good :
    (code 0x211FFFFFFFFFFFFF#64 []).fetch 0#64 = .ok 0x211FFFFFFFFFFFFF#64 ∧
    ¬ Unassigned (fieldAt 0x211FFFFFFFFFFFFF#64 56) ∧
    (∀ k ∈ (formatOf (fieldAt 0x211FFFFFFFFFFFFF#64 56)).1, fieldAt 0x211FFFFFFFFFFFFF#64 k < 32) ∧
    (0x211FFFFFFFFFFFFF#64 : Word).toNat &&& (formatOf (fieldAt 0x211FFFFFFFFFFFFF#64 56)).2 = 0 :=
  ⟨by decide, by decide, by decide, by decide⟩

theorem witness_StepRunsDecodedInstruction :
    (code 0x0103010200000000#64 []).running = true ∧
    (code 0x0103010200000000#64 []).fetch 0#64 = .ok 0x0103010200000000#64 ∧
    decode 0x0103010200000000#64 = .ok (.add 3 1 2) := by decide

/-- Misaligned (in and out of range), the first word out of range, the last word in range, and a device address. -/
theorem witness_FetchReadsAlignedWord :
    (0x3FFFFFC#64 : Word).toNat % 8 ≠ 0 ∧ (0x4000001#64 : Word).toNat % 8 ≠ 0 ∧
    ((0x4000000#64 : Word).toNat % 8 = 0 ∧ State.reset.config.memBytes < (0x4000000#64 : Word).toNat + 8) ∧
    ((0xFFFFFFFFFFF0#64 : Word).toNat % 8 = 0 ∧ State.reset.config.memBytes < (0xFFFFFFFFFFF0#64 : Word).toNat + 8) ∧
    ((0x3FFFFF8#64 : Word).toNat % 8 = 0 ∧ (0x3FFFFF8#64 : Word).toNat + 8 ≤ State.reset.config.memBytes) := by decide

theorem witness_FailedFetchHalts :
    ((State.reset.setPc 1#64).running = true ∧ (State.reset.setPc 1#64).pc.toNat % 8 ≠ 0) ∧
    ((State.reset.setPc 0x4000000#64).running = true ∧ (State.reset.setPc 0x4000000#64).pc.toNat % 8 = 0 ∧
      (State.reset.setPc 0x4000000#64).config.memBytes < (State.reset.setPc 0x4000000#64).pc.toNat + 8) := by decide

theorem witness_RunningCoreAlwaysSteps : State.reset.running = true := rfl

/-- A Halted state, resets that leave it, and actions that do not. -/
theorem witness_HaltedOnlyLeftByReset :
    ({ State.reset with running := false } : State).running = false ∧
    (∃ t, hostAct (.assertReset 8#64) { State.reset with running := false } = some t ∧ t.running = true) ∧
    (∃ t, hostAct (.loadInReset [(0, 1#8)] 8#64) { State.reset with running := false } = some t ∧ t.running = true) ∧
    (∃ t, hostAct (.loadByte 0 1#8) { State.reset with running := false } = some t ∧ t.running = false) ∧
    (∃ t, hostAct (.supplyInput 5#64) { State.reset with running := false } = some t ∧ t.running = false) :=
  ⟨rfl, ⟨_, rfl, rfl⟩, ⟨_, rfl, rfl⟩, ⟨_, rfl, rfl⟩, ⟨_, rfl, rfl⟩⟩

/-- A step that halts for each cause and sub-cause. -/
theorem witness_HaltCausesTellTheReason :
    (∃ t, step (code 0xF000000000000000#64 []) = .next t ∧ t.running = false) ∧
    (∃ t, step (code 0x0403010200000000#64 []) = .next t ∧ t.running = false) ∧
    (∃ t, step (State.reset.setPc 0x4000000#64) = .next t ∧ t.running = false) ∧
    (∃ t, step (State.reset.setPc 4#64) = .next t ∧ t.running = false) ∧
    (∃ t, step (code 0x2004000004000000#64 []) = .next t ∧ t.running = false) ∧
    (∃ t, step (code 0x2004000000000104#64 []) = .next t ∧ t.running = false) ∧
    (∃ t, step (code 0x2101000004000000#64 []) = .next t ∧ t.running = false) ∧
    (∃ t, step (code 0x2101000000000101#64 []) = .next t ∧ t.running = false) ∧
    (∃ t, step (code 0#64 []) = .next t ∧ t.running = false) ∧
    (∃ t, step (code 0x0120010200000000#64 []) = .next t ∧ t.running = false) ∧
    (∃ t, step (code 0xF000000000000001#64 []) = .next t ∧ t.running = false) :=
  ⟨exists_next (by decide), exists_next (by decide), exists_next (by decide), exists_next (by decide),
   exists_next (by decide), exists_next (by decide), exists_next (by decide), exists_next (by decide),
   exists_next (by decide), exists_next (by decide), exists_next (by decide)⟩

theorem witness_HaltingStepIsPrecise :
    (∃ t, step (code 0x0403010200000000#64 [(1, 5#64)]) = .next t ∧ t.running = false) ∧
    (∃ t, step (State.reset.setPc 4#64) = .next t ∧ t.running = false) :=
  ⟨exists_next (by decide), exists_next (by decide)⟩

/-- A zero divisor, the overflowing quotient, and a quotient beside it. -/
theorem witness_DivTruncatesOrFaults :
    ((code 0x0403010200000000#64 []).fetch (code 0x0403010200000000#64 []).pc = .ok 0x0403010200000000#64 ∧
      (code 0x0403010200000000#64 []).reg 2 = 0#64) ∧
    ((code 0#64 [(1, 0x8000000000000000#64), (2, -1)]).reg 2 ≠ 0#64 ∧
      ((code 0#64 [(1, 0x8000000000000000#64), (2, -1)]).reg 1).toInt = -(2 ^ 63) ∧
      ((code 0#64 [(1, 0x8000000000000000#64), (2, -1)]).reg 2).toInt = -1) ∧
    ((code 0#64 [(1, 0x8000000000000001#64), (2, -1)]).reg 2 ≠ 0#64 ∧
      ¬ (((code 0#64 [(1, 0x8000000000000001#64), (2, -1)]).reg 1).toInt = -(2 ^ 63) ∧
        ((code 0#64 [(1, 0x8000000000000001#64), (2, -1)]).reg 2).toInt = -1)) := by decide

/-- IN_ADDR with a value, a misaligned address, the first word out of range, and the last word of memory. -/
theorem witness_LoadReadsWordOrInput :
    ((0xFFFFFFFFFFF0#64 : Word) = (State.reset.setInput [41#64]).config.inAddr ∧
      (State.reset.setInput [41#64]).input = [41#64]) ∧
    ((0x4000001#64 : Word) ≠ State.reset.config.inAddr ∧ State.reset.fetch State.reset.pc = .ok 0#64 ∧
      (0x4000001#64 : Word).toNat % 8 ≠ 0) ∧
    ((0x4000000#64 : Word) ≠ State.reset.config.inAddr ∧ (0x4000000#64 : Word).toNat % 8 = 0 ∧
      State.reset.config.memBytes < (0x4000000#64 : Word).toNat + 8) ∧
    ((0x3FFFFF8#64 : Word) ≠ State.reset.config.inAddr ∧ (0x3FFFFF8#64 : Word).toNat % 8 = 0 ∧
      (0x3FFFFF8#64 : Word).toNat + 8 ≤ State.reset.config.memBytes) := by decide

theorem witness_InputWaitChangesNothing :
    (code 0x2001FFFFFFFFFFF0#64 []).input = [] ∧ (code 0x2001FFFFFFFFFFF0#64 []).running = true ∧
    Runs (code 0x2001FFFFFFFFFFF0#64 []) (.load 1 (code 0x2001FFFFFFFFFFF0#64 []).config.inAddr) :=
  ⟨rfl, rfl, runs_code (by decide)⟩

theorem witness_SuppliedInputEndsWait :
    (code 0x2000FFFFFFFFFFF0#64 []).running = true ∧ (code 0x2000FFFFFFFFFFF0#64 []).input = [] ∧
    Runs (code 0x2000FFFFFFFFFFF0#64 []) (.load 0 (code 0x2000FFFFFFFFFFF0#64 []).config.inAddr) :=
  ⟨rfl, rfl, runs_code (by decide)⟩

/-- OUT_ADDR, a misaligned address, the first word out of range, and the last word of memory. -/
theorem witness_StoreWritesWordOrOutput :
    ((0xFFFFFFFFFFF8#64 : Word) = State.reset.config.outAddr) ∧
    ((0x4000001#64 : Word) ≠ State.reset.config.outAddr ∧ State.reset.fetch State.reset.pc = .ok 0#64 ∧
      (0x4000001#64 : Word).toNat % 8 ≠ 0) ∧
    ((0x4000000#64 : Word) ≠ State.reset.config.outAddr ∧ (0x4000000#64 : Word).toNat % 8 = 0 ∧
      State.reset.config.memBytes < (0x4000000#64 : Word).toNat + 8) ∧
    ((0x3FFFFF8#64 : Word) ≠ State.reset.config.outAddr ∧ (0x3FFFFF8#64 : Word).toNat % 8 = 0 ∧
      (0x3FFFFF8#64 : Word).toNat + 8 ≤ State.reset.config.memBytes ∧ State.reset.mem.wf = true) := by decide

/-- The same word, and the last word of memory beside the first. -/
theorem witness_LoadSeesLatestStore :
    (code 0#64 [(1, 15#64)]).config.Legal ∧ (code 0#64 [(1, 15#64)]).mem.wf = true ∧
    (0x3FFFFF8#64 : Word).toNat % 8 = 0 ∧ (0x3FFFFF8#64 : Word).toNat + 8 ≤ (code 0#64 [(1, 15#64)]).config.memBytes ∧
    (0#64 : Word).toNat % 8 = 0 ∧ (0#64 : Word).toNat + 8 ≤ (code 0#64 [(1, 15#64)]).config.memBytes ∧
    ∃ t, exec (.store 1 0x3FFFFF8#64) (code 0#64 [(1, 15#64)]) = .next t ∧ t.running = true :=
  ⟨by decide, by decide, by decide, by decide, by decide, by decide, exists_next (by decide)⟩

/-- A STORE over its own word. -/
theorem witness_StoreSeenByNextFetch :
    (code 0x2101000000000000#64 []).running = true ∧ (code 0x2101000000000000#64 []).config.Legal ∧
    (code 0x2101000000000000#64 []).mem.wf = true ∧ (0#64 : Word).toNat % 8 = 0 ∧
    (0#64 : Word).toNat + 8 ≤ (code 0x2101000000000000#64 []).config.memBytes ∧
    Runs (code 0x2101000000000000#64 []) (.store 1 0#64) :=
  ⟨rfl, by decide, by decide, by decide, by decide, runs_code (by decide)⟩

/-- The defaults of R7 are legal, and so is the smallest memory with the devices right above it. -/
theorem witness_DeviceAddressesAreNotMemory :
    (State.reset.config.Legal ∧ State.reset.fetch State.reset.pc = .ok 0#64) ∧
    Config.Legal { memBytes := 8, inAddr := 8#64, outAddr := 16#64 } := by decide

/-- A misaligned target, and the first address out of range. -/
theorem witness_BadTargetFaultsAtNextFetch :
    ((code 0x3100050000000000#64 [(5, 1#64)]).running = true ∧ Runs (code 0x3100050000000000#64 [(5, 1#64)]) (.jr 5) ∧
      ((code 0x3100050000000000#64 [(5, 1#64)]).reg 5).toNat % 8 ≠ 0) ∧
    ((code 0x3100050000000000#64 [(5, 0x4000000#64)]).running = true ∧
      Runs (code 0x3100050000000000#64 [(5, 0x4000000#64)]) (.jr 5) ∧
      (code 0x3100050000000000#64 [(5, 0x4000000#64)]).config.memBytes <
        ((code 0x3100050000000000#64 [(5, 0x4000000#64)]).reg 5).toNat + 8) :=
  ⟨⟨rfl, runs_code (by decide), by decide⟩, ⟨rfl, runs_code (by decide), by decide⟩⟩

theorem witness_HaltStopsTheCore :
    decode 0xF000000000000000#64 = .ok .halt ∧
    (code 0xF000000000000000#64 []).fetch (code 0xF000000000000000#64 []).pc = .ok 0xF000000000000000#64 := by decide

theorem witness_OnlyDestinationRegisterChanges :
    ∃ t, step (code 0x151F0000FFFFFFFF#64 []) = .next t ∧ t.reg 31 ≠ (code 0x151F0000FFFFFFFF#64 []).reg 31 :=
  exists_next (by decide)

/-- A CMP, and a step that runs no CMP. -/
theorem witness_FlagsWrittenOnlyByCmp :
    ((∃ t, step (code 0x0B07010200000000#64 []) = .next t ∧ t.running = true) ∧
      Runs (code 0x0B07010200000000#64 []) (.cmp 7 1 2)) ∧
    ((∃ t, step (code 0#64 []) = .next t ∧ t.running = false) ∧
      ∀ rd rs1 rs2, ¬ Runs (code 0#64 []) (.cmp rd rs1 rs2)) := by
  refine ⟨⟨exists_next (by decide), runs_code (by decide)⟩, exists_next (by decide), ?_⟩
  rintro rd rs1 rs2 ⟨w, hf, hd⟩
  have h0 : (code 0#64 []).fetch (code 0#64 []).pc = .ok 0#64 := by decide
  rw [h0] at hf
  cases hf
  cases hd

theorem witness_StatusWrittenOnceWhenHalting :
    (∃ t, step (code 0x1501000000000005#64 []) = .next t ∧ t.running = true) ∧
    (∃ t, step (code 0xF000000000000000#64 []) = .next t ∧ t.running = false) :=
  ⟨exists_next (by decide), exists_next (by decide)⟩

/-- The first and the last byte of the word stored. -/
theorem witness_MemoryChangesOnlyByStore :
    ∃ t, step (code 0x2101000000000100#64 [(1, -1)]) = .next t ∧
      t.readByte 0x100 ≠ (code 0x2101000000000100#64 [(1, -1)]).readByte 0x100 ∧
      t.readByte 0x107 ≠ (code 0x2101000000000100#64 [(1, -1)]).readByte 0x107 :=
  exists_next (by decide)

theorem witness_StreamsMoveOnlyByDeviceAccess :
    (∃ t, step (code 0x2101FFFFFFFFFFF8#64 []) = .next t ∧ t.output = [0#64]) ∧
    (∃ t, step ((code 0x2001FFFFFFFFFFF0#64 []).setInput [41#64]) = .next t ∧ t.input = []) :=
  ⟨exists_next (by decide), exists_next (by decide)⟩

/-- A step that stays Running, and one that halts. -/
theorem witness_StepKeepsInvariant :
    ((code 0x1501000000000005#64 []).Inv ∧
      ∃ t, step (code 0x1501000000000005#64 []) = .next t ∧ t.running = true) ∧
    ((code 0x2004000000000104#64 []).Inv ∧
      ∃ t, step (code 0x2004000000000104#64 []) = .next t ∧ t.running = false) :=
  ⟨⟨by decide, exists_next (by decide)⟩, ⟨by decide, exists_next (by decide)⟩⟩

theorem witness_HostActionsKeepInvariant :
    State.reset.Inv ∧ (∃ t, hostAct (.assertReset 4#64) State.reset = some t) ∧
    (∃ t, hostAct (.supplyInput 5#64) State.reset = some t) ∧
    (∃ t, hostAct (.loadInReset [(0x3FFFFFF, 1#8)] 8#64) State.reset = some t) :=
  ⟨by decide, ⟨_, rfl⟩, ⟨_, rfl⟩, ⟨_, rfl⟩⟩

theorem witness_EntryPointCheckedAtFirstFetch :
    (1#64 : Word).toNat % 8 ≠ 0 ∧
    ((0x4000000#64 : Word).toNat % 8 = 0 ∧ State.reset.config.memBytes < (0x4000000#64 : Word).toNat + 8) := by decide

theorem witness_ImagePlacedInMemory :
    0 < [0xAA#8].length ∧ 0 < [0xBB#8, 0xCC#8].length ∧ [0xAA#8].length + [0xBB#8, 0xCC#8].length ≤ 3 := by decide

/-- Another magic, another version, one byte more than memory holds, a file one byte short, a short header, and a file
that just fits memory and its header. -/
theorem witness_ImageHeaderParsedOrRefused :
    (1#32 : BitVec 32) ≠ 0#32 ∧ (1#16 : BitVec 16) ≠ 0#16 ∧ 8 < (5#64 : Word).toNat + (4#64 : Word).toNat ∧
    [0#8].length < (1#64 : Word).toNat + (1#64 : Word).toNat ∧ (List.replicate 29 (0#8)).length < 30 ∧
    ((4#64 : Word).toNat + (4#64 : Word).toNat ≤ 8 ∧
      (List.replicate 8 (0#8)).length = (4#64 : Word).toNat + (4#64 : Word).toNat) := by decide

/-- The body as long as the header says; the longer file has any rest after it. -/
theorem witness_LongerImageFileAccepted :
    (4#64 : Word).toNat + (4#64 : Word).toNat ≤ 8 ∧
    (List.replicate 8 (0#8)).length = (4#64 : Word).toNat + (4#64 : Word).toNat := by decide

/-- Running, Halted with the last byte of memory, and the first byte outside. -/
theorem witness_LoaderPortOnlyWhenHalted :
    State.reset.running = true ∧
    (({ State.reset with running := false } : State).running = false ∧ 0x3FFFFFF < State.reset.config.memBytes ∧
      State.reset.mem.wf = true) ∧
    State.reset.config.memBytes ≤ 0x4000000 := by decide

/-- The first and the last byte of memory, one of them twice. -/
theorem witness_LoadInResetWritesCells :
    (∀ c ∈ ([(0, 1#8), (0x3FFFFFF, 2#8), (0, 3#8)] : List Host.Cell), c.1 < State.reset.config.memBytes) ∧
    State.reset.mem.wf = true ∧
    (∀ c ∈ ([(0, 1#8), (0x3FFFFFF, 2#8), (0, 3#8)] : List Host.Cell), c.1 ≠ 1) ∧
    ([(0, 1#8), (0x3FFFFFF, 2#8), (0, 3#8)] : List Host.Cell) = [(0, 1#8), (0x3FFFFFF, 2#8)] ++ (0, 3#8) :: [] := by
  decide

/-- Registers at the ends of their range, and an immediate, an address, a label and an offset at theirs. -/
theorem witness_LinesMakeTheirWords :
    readRegister "R0".toList = .ok 0 ∧ readRegister "R31".toList = .ok 31 ∧
    readImmediate "-2147483648".toList = .ok 0xFFFFFFFF80000000#64 ∧
    readAddress [] "281474976710655".toList = .ok (0xFFFFFFFFFFFF#64, none) ∧
    readAddress [] "foo".toList = .ok (0#64, some "foo".toList) ∧
    readOffset [] 0 "2147483647".toList = .ok 0x7FFFFFFF#64 := by decide

/-- Every clause at the two values where it meets its neighbour. -/
theorem witness_LiteralsAreDecimal :
    decimalValue [3, 1] = 31 ∧ decimalValue [3, 2] = 32 ∧ decimalValue [2, 1, 4, 7, 4, 8, 3, 6, 4, 7] = 2 ^ 31 - 1 ∧
    decimalValue [2, 1, 4, 7, 4, 8, 3, 6, 4, 8] = 2 ^ 31 ∧ decimalValue [2, 1, 4, 7, 4, 8, 3, 6, 4, 9] = 2 ^ 31 + 1 ∧
    decimalValue [2, 8, 1, 4, 7, 4, 9, 7, 6, 7, 1, 0, 6, 5, 5] = 2 ^ 48 - 1 ∧
    decimalValue [2, 8, 1, 4, 7, 4, 9, 7, 6, 7, 1, 0, 6, 5, 6] = 2 ^ 48 ∧
    digitToken [3, 1] = "31".toList := by decide

/-- An unrecognized character, a label declared before, an unknown mnemonic and bad operands. -/
theorem witness_EveryAssemblyErrorReported :
    (stripComment "LI R32,5 ?".toList).any (fun c => !isSourceChar c) = true ∧
    AsmErrorKind.lexicalError ∈ (readLine "LI R32,5 ?".toList).errors ∧
    ((readLine "a:".toList).label = some "a".toList ∧ (readLine "a: HALT".toList).label = some "a".toList) ∧
    ((readLine "NOP".toList).instruction = some ("NOP".toList, []) ∧ ∀ e ∈ mnemonics, e.1.toList ≠ "NOP".toList) ∧
    ((readLine "LI R32,5 ?".toList).instruction = some ("LI".toList, ["R32".toList, "5".toList]) ∧
      assembleInstr (labelsFrom 0 (["LI R32,5 ?".toList].map readLine)) (addressOf ["LI R32,5 ?".toList] 0) "LI".toList
        ["R32".toList, "5".toList] = .error [.invalidOperand]) := by decide

/-- A bad register in the last register place of a line of each number of them, beside another error. -/
theorem witness_EveryBadRegisterReported :
    (readLine "ADD R1,R2,R32".toList).instruction = some ("ADD".toList, ["R1".toList, "R2".toList, "R32".toList]) ∧
    (readLine "BEQ R1,r2".toList).instruction = some ("BEQ".toList, ["R1".toList, "r2".toList]) ∧
    (readLine "JR 5 ?".toList).instruction = some ("JR".toList, ["5".toList]) ∧
    2 < registerPlaces "ADD" ∧ 1 < registerPlaces "BEQ" ∧ 0 < registerPlaces "JR" ∧
    readRegister "R32".toList = .error .invalidOperand ∧ readRegister "r2".toList = .error .invalidOperand ∧
    readRegister "5".toList = .error .invalidOperand := by decide

theorem witness_RegisterLineErrorsCounted :
    ["R31".toList, "R32".toList, "r1".toList].length = 3 ∧
    ["R31".toList, "R32".toList, "r1".toList].any (fun t => (readRegister t).toOption.isNone) = true := by decide

theorem witness_AssembledLinesDecode :
    assembleInstr [] 8 "ADDI".toList ["R31".toList, "R0".toList, "-2147483648".toList] =
      .ok (.addi 31 0 0xFFFFFFFF80000000#64, none) ∧
    assembleInstr [] 8 "LOAD".toList ["R1".toList, "281474976710655".toList] = .ok (.load 1 0xFFFFFFFFFFFF#64, none) ∧
    assembleInstr [] 8 "JMP".toList ["foo".toList] = .ok (.jmp 0#64, some "foo".toList) := by decide

theorem witness_BranchReachesItsLabel :
    isIdentifier "loop".toList = true ∧ LabelTable.find [("loop".toList, 0x18)] "loop".toList = some 0x18 ∧
    readOffset [("loop".toList, 0x18)] 0x28 "loop".toList = .ok (-24) ∧
    (State.reset.setPc 0x28#64).pc = BitVec.ofNat 64 0x28 := by decide

/-- The highest address that fits, the lowest that does not, and a data word at the end of its section. -/
theorem witness_PatchSetsAddressField :
    0xFFFFFFFFFFFF < 2 ^ 48 ∧ 2 ^ 48 ≤ 0x1000000000000 ∧ 1 + 8 ≤ (List.replicate 9 (0#8)).length ∧
    ((0 : Nat) < 1 ∨ 1 + 8 ≤ 0) := by decide

end Sys2Proof.Tests
end

section
/-! PROOFS. What every step and every host action keeps (spec/10_state.md): the registers, the flags, the status
registers, memory and the streams change only as the rules say, and the invariant holds along every run. -/

namespace Sys2Proof.Machine

open Sys2Proof Sys2Proof.Claims Sys2Proof.Laws

/-! ### The opcode of a decoded word (R59 to R67) -/

theorem decodeR_ok {mk : Reg → Reg → Reg → Instr} {w : Word} {i : Instr} :
    decodeR mk w = .ok i ↔ ∃ rd rs1 rs2, regOfField (rdField w) = .ok rd ∧ regOfField (rs1Field w) = .ok rs1 ∧
      regOfField (rs2Field w) = .ok rs2 ∧ w &&& mbzR = 0#64 ∧ mk rd rs1 rs2 = i := by
  unfold decodeR
  cases regOfField (rdField w) with
  | error e => simp
  | ok rd =>
    cases regOfField (rs1Field w) with
    | error e => simp
    | ok rs1 => cases regOfField (rs2Field w) <;> simp [checkMbz_ok]

theorem decodeI_ok {mk : Reg → Reg → Word → Instr} {w : Word} {i : Instr} :
    decodeI mk w = .ok i ↔ ∃ rd rs1, regOfField (rdField w) = .ok rd ∧ regOfField (rs1Field w) = .ok rs1 ∧
      w &&& mbzI = 0#64 ∧ mk rd rs1 (immOperand w) = i := by
  unfold decodeI
  cases regOfField (rdField w) with
  | error e => simp
  | ok rd => cases regOfField (rs1Field w) <;> simp [checkMbz_ok]

theorem decodeL_ok {mk : Reg → Word → Instr} {w : Word} {i : Instr} :
    decodeL mk w = .ok i ↔ ∃ rd, regOfField (rdField w) = .ok rd ∧ w &&& mbzL = 0#64 ∧ mk rd (immOperand w) = i := by
  unfold decodeL
  cases regOfField (rdField w) <;> simp [checkMbz_ok]

theorem decodeM_ok {mk : Reg → Word → Instr} {w : Word} {i : Instr} :
    decodeM mk w = .ok i ↔ ∃ r, regOfField (rdField w) = .ok r ∧ mk r (addrOperand w) = i := by
  unfold decodeM
  cases regOfField (rdField w) <;> simp [checkMbz_ok, mbzM_zero]

theorem decodeJ_ok {mk : Word → Instr} {w : Word} {i : Instr} :
    decodeJ mk w = .ok i ↔ w &&& mbzJ = 0#64 ∧ mk (addrOperand w) = i := checkMbz_ok

theorem decodeX_ok {mk : Reg → Instr} {w : Word} {i : Instr} :
    decodeX mk w = .ok i ↔ ∃ rs1, regOfField (rs1Field w) = .ok rs1 ∧ w &&& mbzX = 0#64 ∧ mk rs1 = i := by
  unfold decodeX
  cases regOfField (rs1Field w) <;> simp [checkMbz_ok]

theorem decodeB_ok {mk : Reg → Reg → Word → Instr} {w : Word} {i : Instr} :
    decodeB mk w = .ok i ↔ ∃ rs1 rs2, regOfField (rs1Field w) = .ok rs1 ∧ regOfField (rs2Field w) = .ok rs2 ∧
      w &&& mbzB = 0#64 ∧ mk rs1 rs2 (immOperand w) = i := by
  unfold decodeB
  cases regOfField (rs1Field w) with
  | error e => simp
  | ok rs1 => cases regOfField (rs2Field w) <;> simp [checkMbz_ok]

theorem decodeS_ok {w : Word} {i j : Instr} : decodeS i w = .ok j ↔ w &&& mbzS = 0#64 ∧ i = j := checkMbz_ok

/-- A word that decodes carries the opcode of its instruction and no must-be-zero bit of its format (R67, R73). -/
theorem opField_and_mask_of_decode {w : Word} {i : Instr} (h : decode w = .ok i) :
    opField w = opcodeOf i ∧ w &&& maskOf i = 0#64 := by
  unfold decode at h
  split at h
  case h_1 op | h_2 op | h_3 op | h_4 op | h_5 op | h_6 op | h_7 op | h_8 op | h_9 op | h_10 op | h_11 op =>
    obtain ⟨rd, rs1, rs2, _, _, _, hz, rfl⟩ := decodeR_ok.1 h
    exact ⟨BitVec.eq_of_toNat_eq op, hz⟩
  case h_12 op | h_13 op | h_14 op | h_15 op | h_16 op =>
    obtain ⟨rd, rs1, _, _, hz, rfl⟩ := decodeI_ok.1 h
    exact ⟨BitVec.eq_of_toNat_eq op, hz⟩
  case h_17 op =>
    obtain ⟨rd, _, hz, rfl⟩ := decodeL_ok.1 h
    exact ⟨BitVec.eq_of_toNat_eq op, hz⟩
  case h_18 op | h_19 op =>
    obtain ⟨r, _, rfl⟩ := decodeM_ok.1 h
    exact ⟨BitVec.eq_of_toNat_eq op, mbzM_zero⟩
  case h_20 op =>
    obtain ⟨hz, rfl⟩ := decodeJ_ok.1 h
    exact ⟨BitVec.eq_of_toNat_eq op, hz⟩
  case h_21 op =>
    obtain ⟨rs1, _, hz, rfl⟩ := decodeX_ok.1 h
    exact ⟨BitVec.eq_of_toNat_eq op, hz⟩
  case h_22 op | h_23 op =>
    obtain ⟨rs1, rs2, _, _, hz, rfl⟩ := decodeB_ok.1 h
    exact ⟨BitVec.eq_of_toNat_eq op, hz⟩
  case h_24 op =>
    obtain ⟨hz, rfl⟩ := decodeS_ok.1 h
    exact ⟨BitVec.eq_of_toNat_eq op, hz⟩
  case h_25 => cases h

theorem opField_of_decode {w : Word} {i : Instr} (h : decode w = .ok i) : opField w = opcodeOf i :=
  (opField_and_mask_of_decode h).1

/-- HALT has one word only (R66, R73, R115). -/
theorem eq_haltWord_of_decode {w : Word} (h : decode w = .ok .halt) : w = 0xF000000000000000#64 := by
  obtain ⟨hop, hz⟩ := opField_and_mask_of_decode h
  have hlow : w.extractLsb' 0 56 = 0#56 := mbzS_zero.1 hz
  have hsplit : w = opField w ++ w.extractLsb' 0 56 := by
    unfold opField
    rw [BitVec.extractLsb'_append_extractLsb'_eq_extractLsb' (by rfl)]
    simp
  rw [hsplit, hop, hlow]
  rfl

/-! ### The step as a case analysis (R36 to R38) -/

theorem step_of_runs {s : State} {i : Instr} (hr : s.running = true) (h : Runs s i) : step s = exec i s := by
  have hfd : s.fetchDecode = .ok i := State.fetchDecode_ok.2 h
  simp only [step, hr, hfd]

theorem step_of_fetchDecode_error {s : State} {f : CoreFault} {o : Option Word} (hr : s.running = true)
    (h : s.fetchDecode = .error (f, o)) : step s = .next (s.takeFault f o) := by
  simp only [step, hr, h]

theorem step_running {s t : State} (h : step s = .next t) : s.running = true := (step_next h).1

theorem step_halted {s : State} (hr : s.running = false) : step s = .fault .halted := by
  simp only [step, hr]

/-- A step takes a fault before its instruction is known, or has an effect of the instruction it runs. -/
theorem step_fault_or_effect {s t : State} (h : step s = .next t) :
    (∃ f o, t = s.takeFault f o) ∨ (∃ i, Runs s i ∧ Effect i s t) := by
  obtain ⟨-, ⟨f, -, rfl⟩ | ⟨w, e, -, -, rfl⟩ | ⟨w, i, hw, hd, hx⟩⟩ := step_next h
  · exact .inl ⟨f, none, rfl⟩
  · exact .inl ⟨faultOfDecodeError e, some w, rfl⟩
  · exact .inr ⟨i, ⟨w, hw, hd⟩, exec_effect hx⟩

/-- Every instruction has a next state (R36; for the wait see log entry 2). -/
theorem exec_next (i : Instr) (s : State) : ∃ t, exec i s = .next t := by
  cases i with
  | div rd rs1 rs2 =>
    show ∃ t, execDiv rd rs1 rs2 s = .next t
    unfold execDiv
    split_ifs
    · exact ⟨_, rfl⟩
    · exact ⟨_, rfl⟩
  | load rd a =>
    show ∃ t, execLoad rd a s = .next t
    unfold execLoad
    split
    · exact ⟨_, rfl⟩
    · exact ⟨_, rfl⟩
    · exact ⟨_, rfl⟩
  | store rs a =>
    show ∃ t, execStore rs a s = .next t
    unfold execStore
    split
    · exact ⟨_, rfl⟩
    · exact ⟨_, rfl⟩
  | _ => exact ⟨_, rfl⟩

theorem exec_load_waits {s : State} (rd : Reg) (h : s.input = []) : exec (.load rd s.config.inAddr) s = .next s := by
  have hwait : s.memRead (effectiveAddress s.config.inAddr) = .waiting := State.memRead_waiting.2 ⟨rfl, h⟩
  show execLoad rd s.config.inAddr s = .next s
  simp only [execLoad, hwait]

/-! ### What taking a fault leaves alone (R119) -/

section
variable (s : State) (f : CoreFault) (o : Option Word)

@[simp] theorem State.takeFault_config : (s.takeFault f o).config = s.config := by cases o <;> rfl
@[simp] theorem State.takeFault_reg (q : Reg) : (s.takeFault f o).reg q = s.reg q := by cases o <;> rfl
@[simp] theorem State.takeFault_flagZ : (s.takeFault f o).flagZ = s.flagZ := by cases o <;> rfl
@[simp] theorem State.takeFault_flagN : (s.takeFault f o).flagN = s.flagN := by cases o <;> rfl
@[simp] theorem State.takeFault_flagC : (s.takeFault f o).flagC = s.flagC := by cases o <;> rfl
@[simp] theorem State.takeFault_flagV : (s.takeFault f o).flagV = s.flagV := by cases o <;> rfl
@[simp] theorem State.takeFault_running : (s.takeFault f o).running = false := by cases o <;> rfl
@[simp] theorem State.takeFault_haltCause : (s.takeFault f o).haltCause = f.cause := by cases o <;> rfl
@[simp] theorem State.takeFault_mem : (s.takeFault f o).mem = s.mem := by cases o <;> rfl
@[simp] theorem State.takeFault_readByte (x : Nat) : (s.takeFault f o).readByte x = s.readByte x := by cases o <;> rfl
@[simp] theorem State.takeFault_input : (s.takeFault f o).input = s.input := by cases o <;> rfl
@[simp] theorem State.takeFault_output : (s.takeFault f o).output = s.output := by cases o <;> rfl

end

/-- The causes a fault can record (R117). -/
theorem CoreFault.cause_mem (f : CoreFault) : f.cause = 2#3 ∨ f.cause = 3#3 ∨ f.cause = 4#3 ∨ f.cause = 5#3 := by
  cases f with
  | divisionByZero => exact .inl rfl
  | memoryFault kind why a => exact .inr (.inl rfl)
  | unknownOpcode => exact .inr (.inr (.inl rfl))
  | invalidRegister | invalidZeroField => exact .inr (.inr (.inr rfl))

/-! ### What an instruction changes -/

namespace Effect

variable {i : Instr} {s t : State}

theorem config_eq (h : Effect i s t) : t.config = s.config := by cases h <;> rfl

theorem flagC_eq (h : Effect i s t) : t.flagC = s.flagC := by cases h <;> rfl

theorem flagV_eq (h : Effect i s t) : t.flagV = s.flagV := by cases h <;> rfl

/-- A register that changed is the destination, in a core that goes on (R18). -/
theorem reg_changed {q : Reg} (h : Effect i s t) (hq : t.reg q ≠ s.reg q) :
    t.running = s.running ∧ destOf i = some q := by
  cases h with
  | writes rd v hd =>
    have hqd : q = rd := by
      by_contra hne
      exact hq (s.reg_retire_other rd q v hne)
    exact ⟨rfl, hqd ▸ hd⟩
  | takesInput rd v vs hi _ =>
    have hqd : q = rd := by
      by_contra hne
      exact hq ((s.setInput vs).reg_retire_other rd q v hne)
    exact ⟨rfl, by rw [hi, hqd, destOf]⟩
  | _ => exact absurd rfl hq

/-- Only CMP writes Z and N (R23). -/
theorem flags_eq_of_ne_cmp (h : Effect i s t) (hi : ∀ rd rs1 rs2, i ≠ .cmp rd rs1 rs2) :
    t.flagZ = s.flagZ ∧ t.flagN = s.flagN := by
  cases h with
  | compares rd rs1 rs2 hc => exact absurd hc (hi rd rs1 rs2)
  | _ => exact ⟨rfl, rfl⟩

/-- The status registers stay, or the core halts with a cause of R117 (R25, R26). -/
theorem status_kept_or_halted (h : Effect i s t) :
    SameStatus s t ∨
    (t.running = false ∧ (t.haltCause = 1#3 ∨ t.haltCause = 2#3 ∨ t.haltCause = 3#3)) := by
  cases h with
  | halts _ => exact .inr ⟨rfl, .inl rfl⟩
  | divides _ _ _ _ _ => exact .inr ⟨rfl, .inr (.inl rfl)⟩
  | loadFaults _ _ _ _ _ _ => exact .inr ⟨rfl, .inr (.inr rfl)⟩
  | storeFaults _ _ _ _ _ _ => exact .inr ⟨rfl, .inr (.inr rfl)⟩
  | _ => exact .inl ⟨rfl, rfl, rfl, rfl, rfl, rfl⟩

/-- A byte that changed is one of the eight of a STORE to memory (R42). -/
theorem readByte_changed {x : Nat} (h : Effect i s t) (hx : t.readByte x ≠ s.readByte x) :
    ∃ rs a, i = .store rs a ∧ a ≠ s.config.outAddr ∧ a.toNat ≤ x ∧ x < a.toNat + 8 ∧
      a.toNat + 8 ≤ s.config.memBytes := by
  cases h with
  | stores rs a hi ho hn =>
    have hin : ¬ (x < a.toNat ∨ a.toNat + 8 ≤ x) := fun hout => hx (Memory.read_writeWord_other _ _ hout)
    exact ⟨rs, a, hi, ho, by omega, by omega, (State.accessError_eq_none.1 hn).2⟩
  | _ => exact absurd rfl hx

/-- The output stream grows only by a STORE at OUT_ADDR (R48). -/
theorem output_eq_or_emits (h : Effect i s t) :
    t.output = s.output ∨ ∃ rs, i = .store rs s.config.outAddr ∧ t.output = s.output ++ [s.reg rs] := by
  cases h with
  | emits rs hi => exact .inr ⟨rs, hi, rfl⟩
  | _ => exact .inl rfl

/-- The input stream loses only its first value, to a LOAD at IN_ADDR (R47). -/
theorem input_eq_or_taken (h : Effect i s t) :
    t.input = s.input ∨ ∃ rd v, i = .load rd s.config.inAddr ∧ s.input = v :: t.input ∧ t.reg rd = v := by
  cases h with
  | takesInput rd v vs hi hin => exact .inr ⟨rd, v, hi, hin, State.reg_retire_same _ rd v⟩
  | _ => exact .inl rfl

/-- Memory stays in its canonical form and in range (R32, R45). -/
theorem memoryOk (h : Effect i s t) (hm : s.MemoryOk) : t.MemoryOk := by
  obtain ⟨hwf, hbelow⟩ := hm
  cases h with
  | stores rs a _ _ hn =>
    exact ⟨Memory.wf_writeWord _ _ hwf, Memory.below_writeWord _ _ hbelow (State.accessError_eq_none.1 hn).2⟩
  | _ => exact ⟨hwf, hbelow⟩

/-- An instruction that halts the core leaves a record of its own kind: HALT's, a division's or a data access's, with
the word fetched (R115, R117, R119). -/
theorem haltedRecord {w : Word} (h : Effect i s t) (hr : s.running = true) (hw : s.fetch s.pc = .ok w)
    (hd : decode w = .ok i) (ht : t.running = false) : t.HaltedRecord := by
  have hword : s.instrWord = w := State.instrWord_of_fetch hw
  have hop : opField s.instrWord = opcodeOf i := hword ▸ opField_of_decode hd
  cases h with
  | halts hi =>
    subst hi
    exact .inl ⟨rfl, rfl, rfl, hword.trans (eq_haltWord_of_decode hd), rfl⟩
  | divides rd rs1 rs2 hi _ =>
    subst hi
    exact .inr (.inl ⟨rfl, rfl, rfl, hop, rfl⟩)
  | loadFaults rd a e hi _ _ =>
    subst hi
    have hsub : memorySubCause .load e = 3#3 ∨ memorySubCause .load e = 4#3 := by cases e <;> decide
    exact .inr (.inr (.inr (.inl ⟨rfl, .inl ⟨hop, hsub⟩, rfl⟩)))
  | storeFaults rs a e hi _ _ =>
    subst hi
    have hsub : memorySubCause .store e = 5#3 ∨ memorySubCause .store e = 6#3 := by cases e <;> decide
    exact .inr (.inr (.inr (.inl ⟨rfl, .inr ⟨hop, hsub⟩, rfl⟩)))
  | _ => exact absurd (hr.symm.trans ht) (by decide)

end Effect

/-! ### What a step changes -/

theorem fetchFault_haltedRecord {s : State} {f : CoreFault} (h : s.fetch s.pc = .error f) :
    (s.takeFault f none).HaltedRecord := by
  obtain ⟨e, -, rfl⟩ := State.fetch_error.1 h
  have hsub : memorySubCause .fetch e = 1#3 ∨ memorySubCause .fetch e = 2#3 := by cases e <;> decide
  exact .inr (.inr (.inl ⟨rfl, hsub, rfl, rfl, rfl⟩))

theorem decodeFault_haltedRecord (s : State) {w : Word} {e : DecodeError} (h : decode w = .error e) :
    (s.takeFault (faultOfDecodeError e) (some w)).HaltedRecord := by
  refine .inr (.inr (.inr (.inr ?_)))
  cases e with
  | unknownOpcode => exact ⟨.inl ⟨rfl, rfl, h⟩, rfl, rfl⟩
  | registerField => exact ⟨.inr (.inl ⟨rfl, rfl, h⟩), rfl, rfl⟩
  | mustBeZero => exact ⟨.inr (.inr ⟨rfl, rfl, h⟩), rfl, rfl⟩

/-- A step that halts the core leaves a record of R117 or R115. -/
theorem step_haltedRecord {s t : State} (h : step s = .next t) (ht : t.running = false) : t.HaltedRecord := by
  obtain ⟨hr, ⟨f, hf, rfl⟩ | ⟨w, e, -, hd, rfl⟩ | ⟨w, i, hw, hd, hx⟩⟩ := step_next h
  · exact fetchFault_haltedRecord hf
  · exact decodeFault_haltedRecord s hd
  · exact (exec_effect hx).haltedRecord hr hw hd ht

theorem step_config {s t : State} (h : step s = .next t) : t.config = s.config := by
  obtain ⟨f, o, rfl⟩ | ⟨i, -, he⟩ := step_fault_or_effect h
  · exact s.takeFault_config f o
  · exact he.config_eq

theorem step_flagC {s t : State} (h : step s = .next t) : t.flagC = s.flagC := by
  obtain ⟨f, o, rfl⟩ | ⟨i, -, he⟩ := step_fault_or_effect h
  · exact s.takeFault_flagC f o
  · exact he.flagC_eq

theorem step_flagV {s t : State} (h : step s = .next t) : t.flagV = s.flagV := by
  obtain ⟨f, o, rfl⟩ | ⟨i, -, he⟩ := step_fault_or_effect h
  · exact s.takeFault_flagV f o
  · exact he.flagV_eq

theorem step_memoryOk {s t : State} (h : step s = .next t) (hm : s.MemoryOk) : t.MemoryOk := by
  obtain ⟨f, o, rfl⟩ | ⟨i, -, he⟩ := step_fault_or_effect h
  · simpa [State.MemoryOk] using hm
  · exact he.memoryOk hm

/-- A step leaves the status registers alone, or halts the core with one of the five causes (R25, R26). -/
theorem step_status_kept_or_halted {s t : State} (h : step s = .next t) :
    SameStatus s t ∨
    (t.running = false ∧ (t.haltCause = 1#3 ∨ t.haltCause = 2#3 ∨ t.haltCause = 3#3 ∨ t.haltCause = 4#3 ∨
      t.haltCause = 5#3)) := by
  obtain ⟨f, o, rfl⟩ | ⟨i, -, he⟩ := step_fault_or_effect h
  · exact .inr ⟨s.takeFault_running f o, .inr (s.takeFault_haltCause f o ▸ f.cause_mem)⟩
  · obtain hsame | ⟨hhalt, hc⟩ := he.status_kept_or_halted
    · exact .inl hsame
    · exact .inr ⟨hhalt, by tauto⟩

/-- While the core stays Running a step leaves the status registers alone. -/
theorem step_sameStatus_of_running {s t : State} (h : step s = .next t) (ht : t.running = true) : SameStatus s t :=
  (step_status_kept_or_halted h).resolve_right fun ⟨hf, _⟩ => absurd (ht.symm.trans hf) (by decide)

end Sys2Proof.Machine

namespace Sys2Proof.Claims

open Sys2Proof Sys2Proof.Machine

/-! ### What the words of the statements give (R39, R129) -/

theorem SameStatus.runningRecord {s t : State} (h : SameStatus s t) (hs : s.RunningRecord) : t.RunningRecord := by
  obtain ⟨-, hc, hu, hp, hw, ha⟩ := h
  obtain ⟨hc', hu', hp', hw', ha'⟩ := hs
  exact ⟨hc.trans hc', hu.trans hu', hp.trans hp', hw.trans hw', ha.trans ha'⟩

/-- Memory is no part of what reset sets (R129). -/
theorem ResetTo.setMem {s t : State} {p : Word} (h : ResetTo s t p) (m : Memory) : ResetTo s (t.setMem m) p := h

theorem SameCore.setMem (s : State) (m : Memory) : SameCore s (s.setMem m) :=
  ⟨rfl, fun _ => rfl, ⟨rfl, rfl, rfl, rfl⟩, ⟨rfl, rfl, rfl, rfl, rfl, rfl⟩, rfl, rfl⟩

theorem SameCore.setInput (s : State) (vs : List Word) : SameCore s (s.setInput vs) :=
  ⟨rfl, fun _ => rfl, ⟨rfl, rfl, rfl, rfl⟩, ⟨rfl, rfl, rfl, rfl, rfl, rfl⟩, rfl, rfl⟩

theorem ResetTo.running {s t : State} {p : Word} (h : ResetTo s t p) : t.running = true := by
  obtain ⟨-, -, -, -, -, -, hr, -⟩ := h
  exact hr

theorem SameCore.sameStatus {s t : State} (h : SameCore s t) : SameStatus s t := by
  obtain ⟨-, -, -, hstatus, -⟩ := h
  exact hstatus

theorem SameCore.running {s t : State} (h : SameCore s t) : t.running = s.running := h.sameStatus.1

/-- A core at its reset values with memory in form and in range meets the invariant. -/
theorem ResetTo.inv {s t : State} {p : Word} (h : ResetTo s t p) (hl : s.config.Legal) (hm : t.MemoryOk) : t.Inv := by
  obtain ⟨-, -, -, -, hC, hV, hr, hc, hu, hp, hw, ha, hcfg, -, -⟩ := h
  exact ⟨hcfg ▸ hl, hm, hC, hV, fun _ => ⟨hc, hu, hp, hw, ha⟩, fun hf => absurd (hr.symm.trans hf) (by decide)⟩

/-- Beside memory the invariant speaks only of what `SameCore` keeps. -/
theorem SameCore.inv {s t : State} (h : SameCore s t) (hs : s.Inv) (hm : t.MemoryOk) : t.Inv := by
  obtain ⟨hpc, -, ⟨-, -, hC, hV⟩, ⟨hr, hc, hu, hp, hw, ha⟩, -, hcfg⟩ := h
  obtain ⟨hlegal, -, hC', hV', hrun, hhalt⟩ := hs
  refine ⟨hcfg ▸ hlegal, hm, hC.trans hC', hV.trans hV', fun ht => ?_, fun ht => ?_⟩
  · simpa only [State.RunningRecord, hc, hu, hp, hw, ha] using hrun (hr ▸ ht)
  · simpa only [State.HaltedRecord, State.HaltRecord, State.DivisionRecord, State.FetchRecord, State.DataRecord,
      State.DecodeRecord, hpc, hc, hu, hp, hw, ha] using hhalt (hr ▸ ht)

end Sys2Proof.Claims

namespace Sys2Proof.Machine

open Sys2Proof Sys2Proof.Claims

/-! ### What the host's actions do (R39, R129, R131, R139) -/

/-- An image the loader accepts fits in memory (R132). -/
theorem parseImage_fits {magic : BitVec 32} {version : BitVec 16} {memBytes : Nat} {file : List Byte} {img : Image}
    (h : parseImage magic version memBytes file = some img) :
    (img.code ++ img.data).length ≤ memBytes := by
  simp only [parseImage] at h
  split_ifs at h
  obtain rfl := Option.some.inj h
  simp only [List.length_append, List.length_take, List.length_drop]
  omega

theorem hostAct_loadImage {file : List Byte} {s t : State} :
    hostAct (.loadImage file) s = some t ↔
      ∃ img, parseImage Config.imageMagic Config.imageVersion s.config.memBytes file = some img ∧ t = s.boot img := by
  cases hp : parseImage Config.imageMagic Config.imageVersion s.config.memBytes file with
  | none => simp [hostAct, hp]
  | some img => simp [hostAct, hp, Option.some.injEq, eq_comm (a := s.boot img)]

theorem hostAct_loadInReset {cells : List Host.Cell} {p : Word} {s t : State} :
    hostAct (.loadInReset cells p) s = some t ↔
      (∀ c ∈ cells, c.1 < s.config.memBytes) ∧ t = (s.assertReset p).setMem (s.mem.writeCells cells) := by
  simp only [hostAct, List.all_eq_true, decide_eq_true_eq]
  split_ifs with hc
  · exact ⟨fun h => ⟨hc, (Option.some.inj h).symm⟩, fun ⟨_, h⟩ => congrArg some h.symm⟩
  · exact ⟨fun h => absurd h (by simp), fun ⟨h, _⟩ => absurd h hc⟩

theorem hostAct_loadByte {a : Nat} {b : Byte} {s t : State} :
    hostAct (.loadByte a b) s = some t ↔
      s.running = false ∧ a < s.config.memBytes ∧ t = s.setMem (s.mem.write a b) := by
  simp only [hostAct]
  split_ifs with hr ha
  · simp [hr]
  · simp [hr, ha, eq_comm (b := t)]
  · simp [ha]

@[simp] theorem State.assertReset_reg (s : State) (p : Word) (r : Reg) : (s.assertReset p).reg r = 0#64 := by
  simp [State.assertReset, State.reg]

theorem assertReset_resetTo (s : State) (p : Word) : ResetTo s (s.assertReset p) p :=
  ⟨s.assertReset_reg p, rfl, rfl, rfl, rfl, rfl, rfl, rfl, rfl, rfl, rfl, rfl, rfl, rfl, rfl⟩

theorem State.readBack_of_halted {s : State} (h : s.running = false) :
    s.readBack = some ⟨s.regs, s.pc, s.flagZ, s.flagN, s.flagC, s.flagV, s.haltCause, s.faultSub, s.faultPc,
      s.faultWord, s.faultAddr, s.mem, s.output⟩ := by
  simp [State.readBack, h]

/-- An action with a move resets the core, or leaves all of it but memory and the input stream alone (R139). -/
theorem hostAct_resets_or_keeps {act : HostAction} {s t : State} (h : hostAct act s = some t) :
    (((∃ p, act = .assertReset p) ∨ (∃ file, act = .loadImage file) ∨ (∃ cells p, act = .loadInReset cells p)) ∧
      ∃ p, ResetTo s t p) ∨ SameCore s t := by
  cases act with
  | assertReset p =>
    obtain rfl := Option.some.inj h
    exact .inl ⟨.inl ⟨p, rfl⟩, p, assertReset_resetTo s p⟩
  | loadImage file =>
    obtain ⟨img, -, rfl⟩ := hostAct_loadImage.1 h
    exact .inl ⟨.inr (.inl ⟨file, rfl⟩), _, (assertReset_resetTo s img.entryPoint).setMem _⟩
  | loadInReset cells p =>
    obtain ⟨-, rfl⟩ := hostAct_loadInReset.1 h
    exact .inl ⟨.inr (.inr ⟨cells, p, rfl⟩), p, (assertReset_resetTo s p).setMem _⟩
  | loadByte a b =>
    obtain ⟨-, -, rfl⟩ := hostAct_loadByte.1 h
    exact .inr (SameCore.setMem s _)
  | supplyInput v =>
    obtain rfl := Option.some.inj h
    exact .inr (SameCore.setInput s _)

/-- An action with a move keeps memory in its canonical form and in range (R39, R131). -/
theorem hostAct_memoryOk {act : HostAction} {s t : State} (h : hostAct act s = some t) (hm : s.MemoryOk) :
    t.MemoryOk := by
  obtain ⟨hwf, hbelow⟩ := hm
  cases act with
  | assertReset p =>
    obtain rfl := Option.some.inj h
    exact ⟨hwf, hbelow⟩
  | loadImage file =>
    obtain ⟨img, hp, rfl⟩ := hostAct_loadImage.1 h
    exact ⟨Memory.wf_writeBytes _ 0 Memory.wf_nil,
      Memory.below_writeBytes _ 0 rfl (by simpa [State.boot, State.assertReset] using parseImage_fits hp)⟩
  | loadInReset cells p =>
    obtain ⟨hc, rfl⟩ := hostAct_loadInReset.1 h
    exact ⟨Memory.wf_writeCells cells hwf, Memory.below_writeCells cells hbelow hc⟩
  | loadByte a b =>
    obtain ⟨-, ha, rfl⟩ := hostAct_loadByte.1 h
    exact ⟨Memory.wf_write a b hwf, Memory.below_write a b hbelow ha⟩
  | supplyInput v =>
    obtain rfl := Option.some.inj h
    exact ⟨hwf, hbelow⟩

/-! ### The loader's writes in order (R39) -/

theorem Memory.writeCells_append (cs ds : List Host.Cell) :
    ∀ m : Memory, m.writeCells (cs ++ ds) = (m.writeCells cs).writeCells ds := by
  induction cs with
  | nil => exact fun _ => rfl
  | cons c cs ih => exact fun m => ih (m.write c.1 c.2)

theorem Memory.read_writeCells_other {x : Nat} (cs : List Host.Cell) :
    ∀ m : Memory, (∀ c ∈ cs, c.1 ≠ x) → (m.writeCells cs).read x = m.read x := by
  induction cs with
  | nil => exact fun _ _ => rfl
  | cons c cs ih =>
    intro m h
    rw [Memory.writeCells, ih _ fun d hd => h d (List.mem_cons_of_mem c hd),
      Memory.read_write_other c.2 (h c List.mem_cons_self).symm]

/-- The last write to an address is the one read back. -/
theorem Memory.read_writeCells_last {m : Memory} {before after : List Host.Cell} {x : Nat} {v : Byte}
    (hm : m.wf = true) (h : ∀ c ∈ after, c.1 ≠ x) : (m.writeCells (before ++ (x, v) :: after)).read x = v := by
  rw [Memory.writeCells_append, Memory.writeCells, Memory.read_writeCells_other after _ h]
  exact Memory.read_write_same x v (Memory.wf_writeCells before hm)

end Sys2Proof.Machine

namespace Sys2Proof.Proofs

open Sys2Proof Sys2Proof.Machine Sys2Proof.Claims

/-! ### The invariant -/

/-- Settles O36: each part of the invariant is kept by a lemma of its own about the step. -/
theorem stepKeepsInvariant : Obligations.StepKeepsInvariant := by
  unfold Obligations.StepKeepsInvariant
  rintro s t ⟨hlegal, hmem, hC, hV, hrun, -⟩ h
  have hs : s.RunningRecord := hrun (step_running h)
  exact ⟨step_config h ▸ hlegal, step_memoryOk h hmem, (step_flagC h).trans hC, (step_flagV h).trans hV,
    fun ht => (step_sameStatus_of_running h ht).runningRecord hs, step_haltedRecord h⟩

/-- Settles O38: an action resets the core or keeps its record, and memory stays in form. -/
theorem hostActionsKeepInvariant : Obligations.HostActionsKeepInvariant := by
  unfold Obligations.HostActionsKeepInvariant
  rintro act s t ⟨hlegal, hmem, hC, hV, hrun, hhalt⟩ h
  have hmem' : t.MemoryOk := hostAct_memoryOk h hmem
  obtain ⟨-, p, hreset⟩ | hsame := hostAct_resets_or_keeps h
  · exact hreset.inv hlegal hmem'
  · exact hsame.inv ⟨hlegal, hmem, hC, hV, hrun, hhalt⟩ hmem'

/-! ### The step -/

/-- Settles O5: fetch and decoding are fixed by the premises. -/
theorem stepRunsDecodedInstruction : Obligations.StepRunsDecodedInstruction := by
  unfold Obligations.StepRunsDecodedInstruction
  exact fun s w i hr hw hd => step_of_runs hr ⟨w, hw, hd⟩

/-- Settles O8: a fault of fetching or decoding is a next state, and every instruction has one. -/
theorem runningCoreAlwaysSteps : Obligations.RunningCoreAlwaysSteps := by
  unfold Obligations.RunningCoreAlwaysSteps
  intro s hr
  cases hfd : s.fetchDecode with
  | error e => exact ⟨_, step_of_fetchDecode_error hr hfd⟩
  | ok i =>
    obtain ⟨t, ht⟩ := exec_next i s
    exact ⟨t, (step_of_runs hr (State.fetchDecode_ok.1 hfd)).trans ht⟩

/-- Settles O21: the read of the input device waits, in `exec` and so in the step that runs it. -/
theorem inputWaitChangesNothing : Obligations.InputWaitChangesNothing := by
  unfold Obligations.InputWaitChangesNothing
  intro rd s hin
  have hwait := exec_load_waits rd hin
  exact ⟨hwait, fun hr hruns => (step_of_runs hr hruns).trans hwait⟩

/-- Settles O31: a fault changes no register, and an instruction only its destination. -/
theorem onlyDestinationRegisterChanges : Obligations.OnlyDestinationRegisterChanges := by
  unfold Obligations.OnlyDestinationRegisterChanges
  intro s t q h hq
  obtain ⟨f, o, rfl⟩ | ⟨i, hi, he⟩ := step_fault_or_effect h
  · exact absurd (s.takeFault_reg f o q) hq
  · obtain ⟨hrun, hdest⟩ := he.reg_changed hq
    exact ⟨hrun.trans (step_running h), i, hi, hdest⟩

/-- Settles O32: the step of a CMP is computed, every other effect leaves Z and N. -/
theorem flagsWrittenOnlyByCmp : Obligations.FlagsWrittenOnlyByCmp := by
  unfold Obligations.FlagsWrittenOnlyByCmp
  refine ⟨rfl, rfl, fun s t h => ⟨step_flagC h, step_flagV h, fun rd rs1 rs2 hcmp => ?_, fun hno => ?_⟩⟩
  · have hexec : execCmp rd rs1 rs2 s = .next t := (step_of_runs (step_running h) hcmp).symm.trans h
    obtain rfl := Host.Outcome.next.inj hexec
    simp [cmpZ, cmpN]
  · obtain ⟨f, o, rfl⟩ | ⟨i, hi, he⟩ := step_fault_or_effect h
    · exact ⟨s.takeFault_flagZ f o, s.takeFault_flagN f o⟩
    · exact he.flags_eq_of_ne_cmp fun rd rs1 rs2 hc => hno rd rs1 rs2 (hc ▸ hi)

/-- Settles O33: a step keeps the status registers or halts, and a Halted core has no step. -/
theorem statusWrittenOnceWhenHalting : Obligations.StatusWrittenOnceWhenHalting := by
  unfold Obligations.StatusWrittenOnceWhenHalting
  refine ⟨rfl, rfl, fun s t h => ?_⟩
  have hr : s.running = true := step_running h
  refine ⟨hr, step_sameStatus_of_running h, fun ht => ⟨?_, fun u hu => ?_⟩⟩
  · obtain ⟨hrun, -⟩ | ⟨-, hcause⟩ := step_status_kept_or_halted h
    · exact absurd ((hrun.trans hr).symm.trans ht) (by decide)
    · exact hcause
  · exact absurd ((step_halted ht).symm.trans hu) (by simp)

/-- Settles O34: of all effects only a STORE to memory writes bytes, its own eight. -/
theorem memoryChangesOnlyByStore : Obligations.MemoryChangesOnlyByStore := by
  unfold Obligations.MemoryChangesOnlyByStore
  refine fun s t h => ⟨step_config h, fun x hx => ?_⟩
  obtain ⟨f, o, rfl⟩ | ⟨i, hi, he⟩ := step_fault_or_effect h
  · exact absurd (s.takeFault_readByte f o x) hx
  · obtain ⟨rs, a, rfl, hstored⟩ := he.readByte_changed hx
    exact ⟨rs, a, hi, hstored⟩

/-- Settles O35: only the two device effects touch a stream. -/
theorem streamsMoveOnlyByDeviceAccess : Obligations.StreamsMoveOnlyByDeviceAccess := by
  unfold Obligations.StreamsMoveOnlyByDeviceAccess
  intro s t h
  obtain ⟨f, o, rfl⟩ | ⟨i, hi, he⟩ := step_fault_or_effect h
  · exact ⟨.inl (s.takeFault_output f o), .inl (s.takeFault_input f o)⟩
  constructor
  · obtain hsame | ⟨rs, rfl, hout⟩ := he.output_eq_or_emits
    · exact .inl hsame
    · exact .inr ⟨rs, hi, hout⟩
  · obtain hsame | ⟨rd, v, rfl, hin⟩ := he.input_eq_or_taken
    · exact .inl hsame
    · exact .inr ⟨rd, v, hi, hin⟩

/-! ### The host -/

/-- Settles O9: every host action resets the core or leaves it as it is. -/
theorem haltedOnlyLeftByReset : Obligations.HaltedOnlyLeftByReset := by
  unfold Obligations.HaltedOnlyLeftByReset
  refine fun s hr => ⟨fun t => by simp [step_halted hr], ?_, fun act t h => ?_⟩
  · exact ⟨_, State.readBack_of_halted hr, rfl, rfl, rfl, rfl, rfl, rfl, rfl, rfl, rfl, rfl, rfl, rfl, rfl⟩
  · obtain ⟨hact, p, hreset⟩ | hsame := hostAct_resets_or_keeps h
    · exact ⟨fun _ => ⟨hact, p, hreset⟩, fun ht => absurd (hreset.running.symm.trans ht) (by decide)⟩
    · exact ⟨fun ht => absurd (ht.symm.trans (hsame.running.trans hr)) (by decide), fun _ => hsame⟩

/-- Settles O45: when the two loader actions have a move, and what a byte write reads back. -/
theorem loaderPortOnlyWhenHalted : Obligations.LoaderPortOnlyWhenHalted := by
  unfold Obligations.LoaderPortOnlyWhenHalted
  refine fun s a b => ⟨fun hr => ⟨?_, ?_⟩, fun hr ha hwf => ?_, fun ha hwf p => ?_, fun ha => ⟨?_, fun p => ?_⟩⟩
  · simp [hostAct, hr]
  · simp [State.readBack, hr]
  · exact ⟨_, hostAct_loadByte.2 ⟨hr, ha, rfl⟩, Memory.read_write_same a b hwf,
      fun x hx => Memory.read_write_other b hx s.mem, SameCore.setMem s _, rfl, rfl⟩
  · exact ⟨_, hostAct_loadInReset.2 ⟨by simpa using ha, rfl⟩, (assertReset_resetTo s p).setMem _,
      Memory.read_write_same a b hwf, fun x hx => Memory.read_write_other b hx s.mem⟩
  · simp [hostAct, Nat.not_lt.2 ha]
  · simp [hostAct, ha]

/-- Settles O46, by the two laws of reading after the loader's writes. -/
theorem loadInResetWritesCells : Obligations.LoadInResetWritesCells := by
  unfold Obligations.LoadInResetWritesCells
  intro s cells p hin hwf
  refine ⟨_, hostAct_loadInReset.2 ⟨hin, rfl⟩, (assertReset_resetTo s p).setMem _,
    fun x hx => Memory.read_writeCells_other cells s.mem hx, ?_⟩
  rintro before after x v rfl hafter
  exact Memory.read_writeCells_last hwf hafter

/-- Settles O47: the action is the update of one field. -/
theorem supplyingInputOnlyAppends : Obligations.SupplyingInputOnlyAppends := by
  unfold Obligations.SupplyingInputOnlyAppends
  exact fun s v => ⟨_, rfl, rfl, SameCore.setInput s _, fun _ => rfl, rfl⟩

/-! ### Registers -/

/-- Settles O39: reset clears every register, and a write is read back whatever its index. -/
theorem noRegisterIsHardwired : Obligations.NoRegisterIsHardwired := by
  unfold Obligations.NoRegisterIsHardwired
  intro s r q v
  refine ⟨State.assertReset_reg State.reset 0#64 r, ?_⟩
  split_ifs with hq
  · rw [hq, State.reg_setReg_same]
  · exact s.reg_setReg_other r q v hq

end Sys2Proof.Proofs
end

section
/-! PROOFS. Word accesses (spec/20_memory.md R40 to R56): the bytes of a word of memory, the checks of an access, and
what LOAD and STORE answer in each case. -/

namespace Sys2Proof.Machine

open Sys2Proof Sys2Proof.Claims

/-! ### The bytes of a word of memory (R44) -/

/-- A byte appended below `x` is its least significant digit in base 256. -/
theorem toNat_append_byte {n : Nat} (x : BitVec n) (b : Byte) : (x ++ b).toNat = 256 * x.toNat + b.toNat := by
  rw [BitVec.toNat_append, ← Nat.shiftLeft_add_eq_or_of_lt b.isLt, Nat.shiftLeft_eq, Nat.mul_comm]

/-- A word is the number its bytes write in base 256, the byte at the highest address first. -/
theorem wordOfBytes_toNat (b0 b1 b2 b3 b4 b5 b6 b7 : Byte) :
    (wordOfBytes b0 b1 b2 b3 b4 b5 b6 b7).toNat =
      256 * (256 * (256 * (256 * (256 * (256 * (256 * b7.toNat + b6.toNat) + b5.toNat) + b4.toNat) + b3.toNat) +
        b2.toNat) + b1.toNat) + b0.toNat := by
  refine (toNat_append_byte _ b0).trans ?_
  simp only [toNat_append_byte]

/-- Byte `i` of a word of memory is the byte of memory at offset `i`. -/
theorem State.byteAt_readWord (s : State) (a : Nat) {i : Nat} (hi : i < 8) :
    byteAt (s.mem.readWord a) i = (s.readByte (a + i)).toNat := by
  rw [byteAt, State.readByte, Memory.readWord, wordOfBytes_toNat]
  match i, hi with
  | 0, _ =>
    show _ = (s.mem.read a).toNat
    omega
  | 1, _ | 2, _ | 3, _ | 4, _ | 5, _ | 6, _ | 7, _ => omega

/-! ### The checks of an access (R45, R46, R49) -/

section
variable {s : State} (hl : s.config.Legal)
include hl

theorem State.accessError_inAddr : s.accessError s.config.inAddr = some .outOfRange := by
  obtain ⟨-, -, hin, -, -, haligned, -⟩ := hl
  exact State.accessError_eq_outOfRange.2 ⟨haligned, by omega⟩

theorem State.accessError_outAddr : s.accessError s.config.outAddr = some .outOfRange := by
  obtain ⟨-, -, -, hout, -, -, haligned, -⟩ := hl
  exact State.accessError_eq_outOfRange.2 ⟨haligned, by omega⟩

/-- A word of memory stands at no device address. -/
theorem State.ne_inAddr {a : Word} (ha : s.accessError a = none) : a ≠ s.config.inAddr := by
  rintro rfl
  exact absurd (ha.symm.trans (State.accessError_inAddr hl)) (by decide)

theorem State.ne_outAddr {a : Word} (ha : s.accessError a = none) : a ≠ s.config.outAddr := by
  rintro rfl
  exact absurd (ha.symm.trans (State.accessError_outAddr hl)) (by decide)

end

/-! ### What LOAD and STORE answer (R41, R42, R47) -/

section
variable {s : State} {a : Word}

theorem exec_load_memory (rd : Reg) (hi : a ≠ s.config.inAddr) (ha : s.accessError a = none) :
    exec (.load rd a) s = .next (s.retire rd (s.mem.readWord a.toNat)) := by
  have hread : s.memRead (effectiveAddress a) = .value (s.mem.readWord a.toNat) s := by
    simp only [State.memRead, effectiveAddress, if_neg hi, ha]
  show execLoad rd a s = _
  simp only [execLoad, hread]

theorem exec_load_input (rd : Reg) {v : Word} {vs : List Word} (h : s.input = v :: vs) :
    exec (.load rd s.config.inAddr) s = .next ((s.setInput vs).retire rd v) := by
  have hread : s.memRead (effectiveAddress s.config.inAddr) = .value v (s.setInput vs) := by
    simp only [State.memRead, effectiveAddress, if_pos, h]
  show execLoad rd s.config.inAddr s = _
  simp only [execLoad, hread]

theorem exec_load_fault (rd : Reg) {e : AccessError} (hi : a ≠ s.config.inAddr) (ha : s.accessError a = some e) :
    exec (.load rd a) s = .next (s.raise (.memoryFault .load e a)) := by
  have hread : s.memRead (effectiveAddress a) = .fault (.memoryFault .load e a) :=
    State.memRead_fault.2 ⟨hi, e, ha, rfl⟩
  show execLoad rd a s = _
  simp only [execLoad, hread]

theorem exec_store_memory (rs : Reg) (ho : a ≠ s.config.outAddr) (ha : s.accessError a = none) :
    exec (.store rs a) s = .next (s.setMem (s.mem.writeWord a.toNat (s.reg rs))).advance := by
  have hwrite : s.memWrite (effectiveAddress a) (s.reg rs) = .ok (s.setMem (s.mem.writeWord a.toNat (s.reg rs))) := by
    simp only [State.memWrite, effectiveAddress, if_neg ho, ha]
  show execStore rs a s = _
  simp only [execStore, hwrite]

theorem exec_store_fault (rs : Reg) {e : AccessError} (ho : a ≠ s.config.outAddr) (ha : s.accessError a = some e) :
    exec (.store rs a) s = .next (s.raise (.memoryFault .store e a)) := by
  have hwrite : s.memWrite (effectiveAddress a) (s.reg rs) = .error (.memoryFault .store e a) :=
    State.memWrite_error.2 ⟨ho, e, ha, rfl⟩
  show execStore rs a s = _
  simp only [execStore, hwrite]

end

/-! ### Halting and writing a register, in the words of the statements (R119, R85) -/

theorem State.haltWith_halts (s : State) (c u : BitVec 3) (w a p : Word) : Halts s (s.haltWith c u w a p) c u w a p :=
  ⟨rfl, rfl, rfl, rfl, rfl, rfl, rfl, fun _ => rfl, ⟨rfl, rfl, rfl, rfl⟩, ⟨fun _ => rfl, rfl⟩, rfl, rfl⟩

/-- A fault at execute records the word fetched, and `pc` has advanced. -/
theorem State.raise_halts {s : State} {w : Word} (f : CoreFault) (h : s.fetch s.pc = .ok w) :
    Halts s (s.raise f) f.cause f.sub w f.addr (s.pc + 8#64) := by
  rw [State.raise_eq, State.instrWord_of_fetch h, State.nextPc]
  exact s.haltWith_halts ..

/-- A fault of the fetch records no word, and `pc` has not advanced. -/
theorem step_of_fetch_error {s : State} {f : CoreFault} (hr : s.running = true) (h : s.fetch s.pc = .error f) :
    ∃ t, step s = .next t ∧ Halts s t f.cause f.sub 0#64 f.addr s.pc :=
  ⟨_, step_of_fetchDecode_error hr (State.fetchDecode_error.2 (.inl ⟨h, rfl⟩)), s.haltWith_halts ..⟩

theorem State.retire_writes (s : State) (rd : Reg) (v : Word) : Writes s (s.retire rd v) rd v :=
  ⟨s.reg_retire_same rd v, fun q hq => s.reg_retire_other rd q v hq, rfl, ⟨rfl, rfl, rfl, rfl⟩,
    ⟨rfl, rfl, rfl, rfl, rfl, rfl⟩, fun _ => rfl, rfl⟩

end Sys2Proof.Machine

namespace Sys2Proof.Proofs

open Sys2Proof Sys2Proof.Machine Sys2Proof.Claims

/-! ### Memory -/

/-- Settles O6: the two failing checks, and the bytes of the word read. -/
theorem fetchReadsAlignedWord : Obligations.FetchReadsAlignedWord := by
  unfold Obligations.FetchReadsAlignedWord
  refine fun s a => ⟨fun hmis => ?_, fun haligned hout => ?_, fun haligned hin => ?_⟩
  · exact State.fetch_error.2 ⟨_, State.accessError_eq_misaligned.2 hmis, rfl⟩
  · exact State.fetch_error.2 ⟨_, State.accessError_eq_outOfRange.2 ⟨haligned, hout⟩, rfl⟩
  · exact ⟨_, State.fetch_ok.2 ⟨State.accessError_eq_none.2 ⟨haligned, hin⟩, rfl⟩,
      fun i hi => s.byteAt_readWord a.toNat hi⟩

/-- Settles O7: the fetch of O6 fails, and its fault is taken with no word. -/
theorem failedFetchHalts : Obligations.FailedFetchHalts := by
  unfold Obligations.FailedFetchHalts
  intro s hr
  obtain ⟨hmisaligned, houtOfRange, -⟩ := fetchReadsAlignedWord s s.pc
  exact ⟨fun hmis => step_of_fetch_error hr (hmisaligned hmis),
    fun haligned hout => step_of_fetch_error hr (houtOfRange haligned hout)⟩

/-- Settles O22: the value supplied is the only one of the stream, and supplying it moves neither `pc` nor memory, so
the same LOAD runs and takes it. -/
theorem suppliedInputEndsWait : Obligations.SuppliedInputEndsWait := by
  unfold Obligations.SuppliedInputEndsWait
  intro rd v s hr hin hruns
  have hact : hostAct (.supplyInput v) s = some (s.setInput [v]) := by rw [hostAct, hin, List.nil_append]
  have hload : Runs (s.setInput [v]) (.load rd s.config.inAddr) := hruns
  have hstep : step (s.setInput [v]) = .next (((s.setInput [v]).setInput []).retire rd v) :=
    (step_of_runs (s := s.setInput [v]) hr hload).trans (exec_load_input (s := s.setInput [v]) rd rfl)
  exact ⟨_, _, hact, hstep, State.retire_writes _ rd v, hin.symm, rfl⟩

/-- Settles O24: the STORE wrote one aligned word, which another aligned word is or shares no byte with. It keeps the
parameters, so both LOADs pass the same checks. -/
theorem loadSeesLatestStore : Obligations.LoadSeesLatestStore := by
  unfold Obligations.LoadSeesLatestStore
  intro rs rd a b s t hlegal hwf ha hain hb hbin hstore
  have haok : s.accessError a = none := State.accessError_eq_none.2 ⟨ha, hain⟩
  have hbok : s.accessError b = none := State.accessError_eq_none.2 ⟨hb, hbin⟩
  have hbne : b ≠ s.config.inAddr := State.ne_inAddr hlegal hbok
  obtain rfl := Host.Outcome.next.inj ((exec_store_memory rs (State.ne_outAddr hlegal haok) haok).symm.trans hstore)
  refine ⟨_, _, exec_load_memory rd hbne hbok, exec_load_memory rd hbne hbok, ?_⟩
  rw [State.reg_retire_same, State.reg_retire_same, State.advance_mem, State.setMem_mem]
  split_ifs with hab
  · rw [hab, Memory.readWord_writeWord_same a.toNat _ hwf]
  · have hne : b.toNat ≠ a.toNat := fun h => hab (BitVec.eq_of_toNat_eq h)
    exact Memory.readWord_writeWord_other s.mem _ (by omega)

/-- Settles O25: the step is the STORE, and the fetch after it passes the same checks and reads the word written. -/
theorem storeSeenByNextFetch : Obligations.StoreSeenByNextFetch := by
  unfold Obligations.StoreSeenByNextFetch
  intro rs a s hr hlegal hwf ha hain hruns
  have haok : s.accessError a = none := State.accessError_eq_none.2 ⟨ha, hain⟩
  refine ⟨_, (step_of_runs hr hruns).trans (exec_store_memory rs (State.ne_outAddr hlegal haok) haok), ?_⟩
  exact State.fetch_ok.2 ⟨haok, (Memory.readWord_writeWord_same a.toNat _ hwf).symm⟩

/-- Settles O26: each access reaches the checks, which find both device addresses out of range. -/
theorem deviceAddressesAreNotMemory : Obligations.DeviceAddressesAreNotMemory := by
  unfold Obligations.DeviceAddressesAreNotMemory
  intro r s w hlegal hfetch
  have hin : s.accessError s.config.inAddr = some .outOfRange := State.accessError_inAddr hlegal
  have hout : s.accessError s.config.outAddr = some .outOfRange := State.accessError_outAddr hlegal
  have hne : s.config.inAddr ≠ s.config.outAddr := by
    obtain ⟨-, -, -, -, hne, -⟩ := hlegal
    exact hne
  exact ⟨⟨_, exec_store_fault r hne hin, State.raise_halts _ hfetch⟩,
    ⟨_, exec_load_fault r hne.symm hout, State.raise_halts _ hfetch⟩,
    State.fetch_error.2 ⟨_, hin, rfl⟩, State.fetch_error.2 ⟨_, hout, rfl⟩⟩

end Sys2Proof.Proofs
end

section
/-! PROOFS. The instruction word (spec/30_encoding.md R57 to R76): its fields as numbers, the two directions of the
round trip, and what the decoder answers for a word that is no instruction. -/

namespace Sys2Proof.Machine

open Sys2Proof Sys2Proof.Claims Sys2Proof.Laws

/-! ### The fields of a word as numbers (R58) -/

/-- A run of bits of a word is a digit of its number. -/
theorem toNat_extractLsb'_word (w : Word) (k n : Nat) : (w.extractLsb' k n).toNat = w.toNat / 2 ^ k % 2 ^ n := by
  rw [BitVec.extractLsb'_toNat, Nat.shiftRight_eq_div_pow]

theorem opField_toNat (w : Word) : (opField w).toNat = fieldAt w 56 := toNat_extractLsb'_word w 56 8

theorem rdField_toNat (w : Word) : (rdField w).toNat = fieldAt w 48 := toNat_extractLsb'_word w 48 8

theorem rs1Field_toNat (w : Word) : (rs1Field w).toNat = fieldAt w 40 := toNat_extractLsb'_word w 40 8

theorem rs2Field_toNat (w : Word) : (rs2Field w).toNat = fieldAt w 32 := toNat_extractLsb'_word w 32 8

theorem imm32OfOperand_toNat (v : Word) : (imm32OfOperand v).toNat = v.toNat % 2 ^ 32 := by
  rw [imm32OfOperand, toNat_extractLsb'_word, Nat.pow_zero, Nat.div_one]

theorem addr48OfOperand_toNat (a : Word) : (addr48OfOperand a).toNat = a.toNat % 2 ^ 48 := by
  rw [addr48OfOperand, toNat_extractLsb'_word, Nat.pow_zero, Nat.div_one]

theorem fieldOfReg_toNat (r : Reg) : (fieldOfReg r).toNat = r.val :=
  regOfField_ok.1 (regOfField_fieldOfReg r)

/-- Where the field is a register, the register is the field. -/
theorem regOfField_fieldAt {f : BitVec 8} {r : Reg} {w : Word} {k : Nat} (hf : f.toNat = fieldAt w k)
    (h : regOfField f = .ok r) : r.val = w.toNat / 2 ^ k % 256 :=
  (regOfField_ok.1 h).symm.trans hf

/-- A field of zeros is a zero digit of the word's number. -/
theorem digit_eq_zero {w : Word} {k n : Nat} (h : w.extractLsb' k n = 0#n) : w.toNat / 2 ^ k % 2 ^ n = 0 := by
  rw [← toNat_extractLsb'_word, h, BitVec.toNat_zero]

/-! ### The encoder's words as sums of their fields (R58 to R66) -/

theorem toNat_append_eq_add {n m : Nat} (x : BitVec n) (y : BitVec m) :
    (x ++ y).toNat = x.toNat * 2 ^ m + y.toNat := by
  rw [BitVec.toNat_append, ← Nat.shiftLeft_add_eq_or_of_lt y.isLt, Nat.shiftLeft_eq]

theorem eq_ofNat_of_toNat {w : Word} {n : Nat} (h : w.toNat = n) : w = BitVec.ofNat 64 n := by
  rw [← h, BitVec.ofNat_toNat, BitVec.setWidth_eq]

section
variable (op : BitVec 8) (r a b : Reg) (v : Word)

theorem encodeR_toNat :
    (encodeR op r a b).toNat = op.toNat * 2 ^ 56 + r.val * 2 ^ 48 + a.val * 2 ^ 40 + b.val * 2 ^ 32 + 0 := by
  simp only [encodeR, toNat_append_eq_add, fieldOfReg_toNat, BitVec.toNat_zero]
  omega

theorem encodeI_toNat :
    (encodeI op r a v).toNat =
      op.toNat * 2 ^ 56 + r.val * 2 ^ 48 + a.val * 2 ^ 40 + 0 * 2 ^ 32 + v.toNat % 2 ^ 32 := by
  simp only [encodeI, toNat_append_eq_add, fieldOfReg_toNat, imm32OfOperand_toNat, BitVec.toNat_zero]
  omega

theorem encodeL_toNat :
    (encodeL op r v).toNat = op.toNat * 2 ^ 56 + r.val * 2 ^ 48 + 0 * 2 ^ 40 + 0 * 2 ^ 32 + v.toNat % 2 ^ 32 := by
  simp only [encodeL, toNat_append_eq_add, fieldOfReg_toNat, imm32OfOperand_toNat, BitVec.toNat_zero]
  omega

theorem encodeM_toNat :
    (encodeM op r v).toNat = op.toNat * 2 ^ 56 + r.val * 2 ^ 48 + v.toNat % 2 ^ 48 := by
  simp only [encodeM, toNat_append_eq_add, fieldOfReg_toNat, addr48OfOperand_toNat]
  omega

theorem encodeJ_toNat : (encodeJ op v).toNat = op.toNat * 2 ^ 56 + 0 * 2 ^ 48 + v.toNat % 2 ^ 48 := by
  simp only [encodeJ, toNat_append_eq_add, addr48OfOperand_toNat, BitVec.toNat_zero]
  omega

theorem encodeX_toNat :
    (encodeX op a).toNat = op.toNat * 2 ^ 56 + 0 * 2 ^ 48 + a.val * 2 ^ 40 + 0 * 2 ^ 32 + 0 := by
  simp only [encodeX, toNat_append_eq_add, fieldOfReg_toNat, BitVec.toNat_zero]
  omega

theorem encodeB_toNat :
    (encodeB op a b v).toNat =
      op.toNat * 2 ^ 56 + 0 * 2 ^ 48 + a.val * 2 ^ 40 + b.val * 2 ^ 32 + v.toNat % 2 ^ 32 := by
  simp only [encodeB, toNat_append_eq_add, fieldOfReg_toNat, imm32OfOperand_toNat, BitVec.toNat_zero]
  omega

theorem encodeS_toNat : (encodeS op).toNat = op.toNat * 2 ^ 56 + 0 * 2 ^ 48 + 0 * 2 ^ 40 + 0 * 2 ^ 32 + 0 := by
  simp only [encodeS, toNat_append_eq_add, BitVec.toNat_zero]
  omega

theorem encodeR_eq_word : encodeR op r a b = word op.toNat r a b 0 := eq_ofNat_of_toNat (encodeR_toNat ..)

theorem encodeI_eq_word : encodeI op r a v = word op.toNat r a 0 (v.toNat % 2 ^ 32) :=
  eq_ofNat_of_toNat (encodeI_toNat ..)

theorem encodeL_eq_word : encodeL op r v = word op.toNat r 0 0 (v.toNat % 2 ^ 32) :=
  eq_ofNat_of_toNat (encodeL_toNat ..)

theorem encodeM_eq_wordA : encodeM op r v = wordA op.toNat r (v.toNat % 2 ^ 48) :=
  eq_ofNat_of_toNat (encodeM_toNat ..)

theorem encodeJ_eq_wordA : encodeJ op v = wordA op.toNat 0 (v.toNat % 2 ^ 48) :=
  eq_ofNat_of_toNat (encodeJ_toNat ..)

theorem encodeX_eq_word : encodeX op a = word op.toNat 0 a 0 0 := eq_ofNat_of_toNat (encodeX_toNat ..)

theorem encodeB_eq_word : encodeB op a b v = word op.toNat 0 a b (v.toNat % 2 ^ 32) :=
  eq_ofNat_of_toNat (encodeB_toNat ..)

theorem encodeS_eq_word : encodeS op = word op.toNat 0 0 0 0 := eq_ofNat_of_toNat (encodeS_toNat ..)

end

/-- Sign extension keeps the low 32 bits (R68). -/
theorem signExtend_toNat_mod (f : BitVec 32) : (f.signExtend 64).toNat % 2 ^ 32 = f.toNat := by
  have := f.isLt
  rw [BitVec.toNat_signExtend, BitVec.toNat_setWidth]
  split_ifs <;> omega

/-- Zero extension keeps the low 48 bits (R69). -/
theorem zeroExtend_toNat_mod (f : BitVec 48) : (f.zeroExtend 64).toNat % 2 ^ 48 = f.toNat := by
  rw [BitVec.zeroExtend_eq_setWidth, BitVec.toNat_setWidth_of_le (by decide), Nat.mod_eq_of_lt f.isLt]

/-! ### Decoding an encoded instruction (R76) -/

section
variable (op : BitVec 8) (r a b : Reg) (v : Word)

theorem decodeR_encodeR (mk : Reg → Reg → Reg → Instr) : decodeR mk (encodeR op r a b) = .ok (mk r a b) :=
  decodeR_ok.2 ⟨r, a, b, by rw [rdField_encodeR, regOfField_fieldOfReg],
    by rw [rs1Field_encodeR, regOfField_fieldOfReg], by rw [rs2Field_encodeR, regOfField_fieldOfReg], mbz_encodeR .., rfl⟩

theorem decodeI_encodeI (mk : Reg → Reg → Word → Instr) (hv : immInRange v) :
    decodeI mk (encodeI op r a v) = .ok (mk r a v) :=
  decodeI_ok.2 ⟨r, a, by rw [rdField_encodeI, regOfField_fieldOfReg], by rw [rs1Field_encodeI, regOfField_fieldOfReg],
    mbz_encodeI .., by rw [immOperand, imm32Field_encodeI, signExtend_imm32OfOperand hv]⟩

theorem decodeL_encodeL (mk : Reg → Word → Instr) (hv : immInRange v) : decodeL mk (encodeL op r v) = .ok (mk r v) :=
  decodeL_ok.2 ⟨r, by rw [rdField_encodeL, regOfField_fieldOfReg], mbz_encodeL ..,
    by rw [immOperand, imm32Field_encodeL, signExtend_imm32OfOperand hv]⟩

theorem decodeM_encodeM (mk : Reg → Word → Instr) (hv : addrInRange v) : decodeM mk (encodeM op r v) = .ok (mk r v) :=
  decodeM_ok.2 ⟨r, by rw [rdField_encodeM, regOfField_fieldOfReg],
    by rw [addrOperand, addr48Field_encodeM, zeroExtend_addr48OfOperand hv]⟩

theorem decodeJ_encodeJ (mk : Word → Instr) (hv : addrInRange v) : decodeJ mk (encodeJ op v) = .ok (mk v) :=
  decodeJ_ok.2 ⟨mbz_encodeJ .., by rw [addrOperand, addr48Field_encodeJ, zeroExtend_addr48OfOperand hv]⟩

theorem decodeX_encodeX (mk : Reg → Instr) : decodeX mk (encodeX op a) = .ok (mk a) :=
  decodeX_ok.2 ⟨a, by rw [rs1Field_encodeX, regOfField_fieldOfReg], mbz_encodeX .., rfl⟩

theorem decodeB_encodeB (mk : Reg → Reg → Word → Instr) (hv : immInRange v) :
    decodeB mk (encodeB op a b v) = .ok (mk a b v) :=
  decodeB_ok.2 ⟨a, b, by rw [rs1Field_encodeB, regOfField_fieldOfReg], by rw [rs2Field_encodeB, regOfField_fieldOfReg],
    mbz_encodeB .., by rw [immOperand, imm32Field_encodeB, signExtend_imm32OfOperand hv]⟩

theorem decodeS_encodeS (i : Instr) : decodeS i (encodeS op) = .ok i := decodeS_ok.2 ⟨mbz_encodeS .., rfl⟩

end

/-- The opcode of the word chooses the decoder of the instruction's format, which reads the operands back (R67, R76). -/
theorem decode_encode {i : Instr} (h : i.wellFormed = true) : decode (encode i) = .ok i := by
  cases i with
  | add | sub | mul | div | and | or | xor | sll | srl | sra | cmp =>
    simp only [decode, encode, opField_encodeR]
    exact decodeR_encodeR ..
  | addi | subi | andi | ori | xori =>
    simp only [decode, encode, opField_encodeI]
    exact decodeI_encodeI _ _ _ _ _ (of_decide_eq_true h)
  | li =>
    simp only [decode, encode, opField_encodeL]
    exact decodeL_encodeL _ _ _ _ (of_decide_eq_true h)
  | load | store =>
    simp only [decode, encode, opField_encodeM]
    exact decodeM_encodeM _ _ _ _ (of_decide_eq_true h)
  | jmp =>
    simp only [decode, encode, opField_encodeJ]
    exact decodeJ_encodeJ _ _ _ (of_decide_eq_true h)
  | jr =>
    simp only [decode, encode, opField_encodeX]
    exact decodeX_encodeX ..
  | beq | bne =>
    simp only [decode, encode, opField_encodeB]
    exact decodeB_encodeB _ _ _ _ _ (of_decide_eq_true h)
  | halt =>
    simp only [decode, encode, opField_encodeS]
    exact decodeS_encodeS ..

/-! ### Encoding a decoded word (R76) -/

theorem immInRange_immOperand (w : Word) : immInRange (immOperand w) := by
  have hle := (imm32Field w).toInt_lt
  have hge := (imm32Field w).le_toInt
  rw [immInRange, immOperand, BitVec.toInt_signExtend_of_le (by decide)]
  exact ⟨hge, hle⟩

theorem addrInRange_addrOperand (w : Word) : addrInRange (addrOperand w) := by
  rw [addrInRange, addrOperand, BitVec.zeroExtend_eq_setWidth, BitVec.toNat_setWidth_of_le (by decide)]
  exact (addr48Field w).isLt

theorem immOperand_toNat_mod (w : Word) : (immOperand w).toNat % 2 ^ 32 = w.toNat % 2 ^ 32 :=
  (signExtend_toNat_mod _).trans (imm32OfOperand_toNat w)

theorem addrOperand_toNat_mod (w : Word) : (addrOperand w).toNat % 2 ^ 48 = w.toNat % 2 ^ 48 :=
  (zeroExtend_toNat_mod _).trans (addr48OfOperand_toNat w)

section
variable {w : Word} {op : BitVec 8} {r a b : Reg}

theorem opField_digit (hop : opField w = op) : op.toNat = w.toNat / 2 ^ 56 % 2 ^ 8 :=
  hop ▸ toNat_extractLsb'_word w 56 8

/-- The digits that the encoder of a format writes are those of a word with that opcode, those registers and zeros in
the must-be-zero bits. -/
theorem encodeR_of_fields (hop : opField w = op) (hr : regOfField (rdField w) = .ok r)
    (ha : regOfField (rs1Field w) = .ok a) (hb : regOfField (rs2Field w) = .ok b) (hz : w &&& mbzR = 0#64) :
    encodeR op r a b = w := by
  have hop := opField_digit hop
  have hr := regOfField_fieldAt (rdField_toNat w) hr
  have ha := regOfField_fieldAt (rs1Field_toNat w) ha
  have hb := regOfField_fieldAt (rs2Field_toNat w) hb
  have hz := digit_eq_zero (mbzR_zero.1 hz)
  apply BitVec.eq_of_toNat_eq
  rw [encodeR_toNat]
  omega

theorem encodeI_of_fields (hop : opField w = op) (hr : regOfField (rdField w) = .ok r)
    (ha : regOfField (rs1Field w) = .ok a) (hz : w &&& mbzI = 0#64) : encodeI op r a (immOperand w) = w := by
  have hop := opField_digit hop
  have hr := regOfField_fieldAt (rdField_toNat w) hr
  have ha := regOfField_fieldAt (rs1Field_toNat w) ha
  have hz := digit_eq_zero (mbzI_zero.1 hz)
  apply BitVec.eq_of_toNat_eq
  rw [encodeI_toNat, immOperand_toNat_mod]
  omega

theorem encodeL_of_fields (hop : opField w = op) (hr : regOfField (rdField w) = .ok r) (hz : w &&& mbzL = 0#64) :
    encodeL op r (immOperand w) = w := by
  have hop := opField_digit hop
  have hr := regOfField_fieldAt (rdField_toNat w) hr
  have hz := digit_eq_zero (mbzL_zero.1 hz)
  apply BitVec.eq_of_toNat_eq
  rw [encodeL_toNat, immOperand_toNat_mod]
  omega

theorem encodeM_of_fields (hop : opField w = op) (hr : regOfField (rdField w) = .ok r) :
    encodeM op r (addrOperand w) = w := by
  have hop := opField_digit hop
  have hr := regOfField_fieldAt (rdField_toNat w) hr
  apply BitVec.eq_of_toNat_eq
  rw [encodeM_toNat, addrOperand_toNat_mod]
  omega

theorem encodeJ_of_fields (hop : opField w = op) (hz : w &&& mbzJ = 0#64) : encodeJ op (addrOperand w) = w := by
  have hop := opField_digit hop
  have hz := digit_eq_zero (mbzJ_zero.1 hz)
  apply BitVec.eq_of_toNat_eq
  rw [encodeJ_toNat, addrOperand_toNat_mod]
  omega

theorem encodeX_of_fields (hop : opField w = op) (ha : regOfField (rs1Field w) = .ok a) (hz : w &&& mbzX = 0#64) :
    encodeX op a = w := by
  obtain ⟨hhigh, hlow⟩ := mbzX_zero.1 hz
  have hop := opField_digit hop
  have ha := regOfField_fieldAt (rs1Field_toNat w) ha
  have hhigh := digit_eq_zero hhigh
  have hlow := digit_eq_zero hlow
  apply BitVec.eq_of_toNat_eq
  rw [encodeX_toNat]
  omega

theorem encodeB_of_fields (hop : opField w = op) (ha : regOfField (rs1Field w) = .ok a)
    (hb : regOfField (rs2Field w) = .ok b) (hz : w &&& mbzB = 0#64) : encodeB op a b (immOperand w) = w := by
  have hop := opField_digit hop
  have ha := regOfField_fieldAt (rs1Field_toNat w) ha
  have hb := regOfField_fieldAt (rs2Field_toNat w) hb
  have hz := digit_eq_zero (mbzB_zero.1 hz)
  apply BitVec.eq_of_toNat_eq
  rw [encodeB_toNat, immOperand_toNat_mod]
  omega

theorem encodeS_of_fields (hop : opField w = op) (hz : w &&& mbzS = 0#64) : encodeS op = w := by
  have hop := opField_digit hop
  have hz := digit_eq_zero (mbzS_zero.1 hz)
  apply BitVec.eq_of_toNat_eq
  rw [encodeS_toNat]
  omega

end

/-- A decoded instruction carries every digit of its word, and the extended operands are in range (R68 to R70, R76). -/
theorem encode_of_decode {w : Word} {i : Instr} (h : decode w = .ok i) : encode i = w ∧ i.wellFormed = true := by
  unfold decode at h
  split at h
  case h_1 op | h_2 op | h_3 op | h_4 op | h_5 op | h_6 op | h_7 op | h_8 op | h_9 op | h_10 op | h_11 op =>
    obtain ⟨rd, rs1, rs2, hd, ha, hb, hz, rfl⟩ := decodeR_ok.1 h
    exact ⟨encodeR_of_fields (BitVec.eq_of_toNat_eq op) hd ha hb hz, rfl⟩
  case h_12 op | h_13 op | h_14 op | h_15 op | h_16 op =>
    obtain ⟨rd, rs1, hd, ha, hz, rfl⟩ := decodeI_ok.1 h
    exact ⟨encodeI_of_fields (BitVec.eq_of_toNat_eq op) hd ha hz, decide_eq_true (immInRange_immOperand w)⟩
  case h_17 op =>
    obtain ⟨rd, hd, hz, rfl⟩ := decodeL_ok.1 h
    exact ⟨encodeL_of_fields (BitVec.eq_of_toNat_eq op) hd hz, decide_eq_true (immInRange_immOperand w)⟩
  case h_18 op | h_19 op =>
    obtain ⟨r, hd, rfl⟩ := decodeM_ok.1 h
    exact ⟨encodeM_of_fields (BitVec.eq_of_toNat_eq op) hd, decide_eq_true (addrInRange_addrOperand w)⟩
  case h_20 op =>
    obtain ⟨hz, rfl⟩ := decodeJ_ok.1 h
    exact ⟨encodeJ_of_fields (BitVec.eq_of_toNat_eq op) hz, decide_eq_true (addrInRange_addrOperand w)⟩
  case h_21 op =>
    obtain ⟨rs1, ha, hz, rfl⟩ := decodeX_ok.1 h
    exact ⟨encodeX_of_fields (BitVec.eq_of_toNat_eq op) ha hz, rfl⟩
  case h_22 op | h_23 op =>
    obtain ⟨rs1, rs2, ha, hb, hz, rfl⟩ := decodeB_ok.1 h
    exact ⟨encodeB_of_fields (BitVec.eq_of_toNat_eq op) ha hb hz, decide_eq_true (immInRange_immOperand w)⟩
  case h_24 op =>
    obtain ⟨hz, rfl⟩ := decodeS_ok.1 h
    exact ⟨encodeS_of_fields (BitVec.eq_of_toNat_eq op) hz, rfl⟩
  case h_25 => cases h

/-! ### Words that are no instruction (R72 to R75) -/

theorem step_of_decode_error {s : State} {w : Word} {e : DecodeError} (hr : s.running = true)
    (hw : s.fetch s.pc = .ok w) (h : decode w = .error e) :
    ∃ t, step s = .next t ∧
      Halts s t (faultOfDecodeError e).cause (faultOfDecodeError e).sub w (faultOfDecodeError e).addr (s.pc + 8#64) :=
  ⟨_, step_of_fetchDecode_error hr (State.fetchDecode_error.2 (.inr ⟨w, e, hw, h, rfl, rfl⟩)), s.haltWith_halts ..⟩

theorem decode_unassigned {w : Word} (h : Unassigned (fieldAt w 56)) : decode w = .error .unknownOpcode := by
  rw [← opField_toNat] at h
  unfold decode
  split
  case h_25 => rfl
  all_goals
    rename_i op
    exact absurd (op ▸ h) (by decide)

/-- `d` is the outcome of the checks of R75 on `w`: each register field of `fields` in turn, and then the mask. -/
def Checks (fields : List Nat) (mask : Nat) (w : Word) (d : Except DecodeError Instr) : Prop :=
  ((∃ k ∈ fields, 32 ≤ fieldAt w k) → d = .error .registerField) ∧
  ((∀ k ∈ fields, fieldAt w k < 32) →
    (w.toNat &&& mask ≠ 0 → d = .error .mustBeZero) ∧ (w.toNat &&& mask = 0 → ∃ i, d = .ok i))

namespace Checks

variable {w : Word} {d : Except DecodeError Instr}

/-- With no register field to check, the mask decides. -/
theorem mask (m w : Word) (i : Instr) : Checks [] m.toNat w (checkMbz m w i) := by
  have hmask : w &&& m = 0#64 ↔ w.toNat &&& m.toNat = 0 := by
    rw [← BitVec.toNat_inj, BitVec.toNat_and, BitVec.toNat_zero]
  refine ⟨by simp, fun _ => ⟨fun h => ?_, fun h => ⟨i, ?_⟩⟩⟩
  · exact checkMbz_error.2 ⟨mt hmask.1 h, rfl⟩
  · exact checkMbz_ok.2 ⟨hmask.2 h, rfl⟩

/-- A register field is checked before the rest. -/
theorem field {f : BitVec 8} {k m : Nat} {ks : List Nat} (hf : f.toNat = fieldAt w k)
    (hbad : regOfField f = .error .registerField → d = .error .registerField)
    (hgood : ∀ r, regOfField f = .ok r → Checks ks m w d) : Checks (k :: ks) m w d := by
  by_cases hk : 32 ≤ fieldAt w k
  · have hd := hbad (regOfField_error.2 ⟨hf ▸ hk, rfl⟩)
    exact ⟨fun _ => hd, fun hall => absurd (hall k (by simp)) (by omega)⟩
  · have hlt : f.toNat < 32 := by omega
    obtain ⟨hreg, hmask⟩ := hgood ⟨f.toNat, hlt⟩ (regOfField_ok.2 rfl)
    refine ⟨fun hex => hreg ?_, fun hall => hmask fun j hj => hall j (by simp [hj])⟩
    simpa [hk] using hex

theorem decodeR (mk : Reg → Reg → Reg → Instr) (w : Word) :
    Checks [48, 40, 32] mbzR.toNat w (decodeR mk w) := by
  unfold Sys2Proof.decodeR
  refine field (rdField_toNat w) (fun h => by simp only [h]) fun rd hd => ?_
  refine field (rs1Field_toNat w) (fun h => by simp only [hd, h]) fun rs1 ha => ?_
  refine field (rs2Field_toNat w) (fun h => by simp only [hd, ha, h]) fun rs2 hb => ?_
  simpa only [hd, ha, hb] using mask mbzR w (mk rd rs1 rs2)

theorem decodeI (mk : Reg → Reg → Word → Instr) (w : Word) : Checks [48, 40] mbzI.toNat w (decodeI mk w) := by
  unfold Sys2Proof.decodeI
  refine field (rdField_toNat w) (fun h => by simp only [h]) fun rd hd => ?_
  refine field (rs1Field_toNat w) (fun h => by simp only [hd, h]) fun rs1 ha => ?_
  simpa only [hd, ha] using mask mbzI w (mk rd rs1 (immOperand w))

theorem decodeL (mk : Reg → Word → Instr) (w : Word) : Checks [48] mbzL.toNat w (decodeL mk w) := by
  unfold Sys2Proof.decodeL
  refine field (rdField_toNat w) (fun h => by simp only [h]) fun rd hd => ?_
  simpa only [hd] using mask mbzL w (mk rd (immOperand w))

theorem decodeM (mk : Reg → Word → Instr) (w : Word) : Checks [48] mbzM.toNat w (decodeM mk w) := by
  unfold Sys2Proof.decodeM
  refine field (rdField_toNat w) (fun h => by simp only [h]) fun r hd => ?_
  simpa only [hd] using mask mbzM w (mk r (addrOperand w))

theorem decodeX (mk : Reg → Instr) (w : Word) : Checks [40] mbzX.toNat w (decodeX mk w) := by
  unfold Sys2Proof.decodeX
  refine field (rs1Field_toNat w) (fun h => by simp only [h]) fun rs1 ha => ?_
  simpa only [ha] using mask mbzX w (mk rs1)

theorem decodeB (mk : Reg → Reg → Word → Instr) (w : Word) : Checks [40, 32] mbzB.toNat w (decodeB mk w) := by
  unfold Sys2Proof.decodeB
  refine field (rs1Field_toNat w) (fun h => by simp only [h]) fun rs1 ha => ?_
  refine field (rs2Field_toNat w) (fun h => by simp only [ha, h]) fun rs2 hb => ?_
  simpa only [ha, hb] using mask mbzB w (mk rs1 rs2 (immOperand w))

end Checks

/-- An assigned opcode's word goes through the checks of the opcode's format (R71 to R75). -/
theorem decode_checks {w : Word} (h : ¬ Unassigned (fieldAt w 56)) :
    Checks (formatOf (fieldAt w 56)).1 (formatOf (fieldAt w 56)).2 w (decode w) := by
  have hlt : (opField w).toNat < 256 := (opField w).isLt
  rw [← opField_toNat] at h ⊢
  unfold decode
  split
  case h_1 op | h_2 op | h_3 op | h_4 op | h_5 op | h_6 op | h_7 op | h_8 op | h_9 op | h_10 op | h_11 op =>
    rw [op]
    exact Checks.decodeR _ w
  case h_12 op | h_13 op | h_14 op | h_15 op | h_16 op =>
    rw [op]
    exact Checks.decodeI _ w
  case h_17 op =>
    rw [op]
    exact Checks.decodeL _ w
  case h_18 op | h_19 op =>
    rw [op]
    exact Checks.decodeM _ w
  case h_20 op =>
    rw [op]
    exact Checks.mask mbzJ w _
  case h_21 op =>
    rw [op]
    exact Checks.decodeX _ w
  case h_22 op | h_23 op =>
    rw [op]
    exact Checks.decodeB _ w
  case h_24 op =>
    rw [op]
    exact Checks.mask mbzS w _
  case h_25 =>
    refine absurd ?_ h
    simp only [imp_false] at *
    omega

end Sys2Proof.Machine

namespace Sys2Proof.Proofs

open Sys2Proof Sys2Proof.Machine Sys2Proof.Claims

/-! ### Encoding -/

/-- Settles O1: the two directions, each by the instruction's format. -/
theorem decodeEncodeRoundTrip : Obligations.DecodeEncodeRoundTrip := by
  unfold Obligations.DecodeEncodeRoundTrip
  exact ⟨fun i hi => decode_encode hi, fun w i hd => encode_of_decode hd⟩

/-- Settles O2: each format's word is a sum, and an extended operand keeps its field's bits. -/
theorem encodedWordLayout : Obligations.EncodedWordLayout := by
  unfold Obligations.EncodedWordLayout
  refine ⟨fun rd rs1 rs2 => ?_, fun rd rs1 f => ?_, fun r f => ?_, fun rs1 rs2 f => ?_, encodeS_eq_word _⟩
  · exact ⟨encodeR_eq_word .., encodeR_eq_word .., encodeR_eq_word .., encodeR_eq_word .., encodeR_eq_word ..,
      encodeR_eq_word .., encodeR_eq_word .., encodeR_eq_word .., encodeR_eq_word .., encodeR_eq_word ..,
      encodeR_eq_word ..⟩
  · rw [← signExtend_toNat_mod f]
    exact ⟨encodeI_eq_word .., encodeI_eq_word .., encodeI_eq_word .., encodeI_eq_word .., encodeI_eq_word ..,
      encodeL_eq_word ..⟩
  · rw [← zeroExtend_toNat_mod f]
    exact ⟨encodeM_eq_wordA .., encodeM_eq_wordA .., encodeJ_eq_wordA ..⟩
  · rw [← signExtend_toNat_mod f]
    exact ⟨encodeX_eq_word .., encodeB_eq_word .., encodeB_eq_word ..⟩

/-- Settles O3: the decoder is run on each word. -/
theorem exampleWordsDecode : Obligations.ExampleWordsDecode := by
  unfold Obligations.ExampleWordsDecode
  exact ⟨by decide, by decide, by decide, by decide, by decide, by decide, by decide, by decide, by decide,
    by decide⟩

/-- Settles O4: a word with an unassigned opcode is refused at once, every other one goes through the checks of its
format, and the step takes the fault of the check that fails. -/
theorem badWordsHaltTheCore : Obligations.BadWordsHaltTheCore := by
  unfold Obligations.BadWordsHaltTheCore
  intro s w hr hw
  refine ⟨fun hun => step_of_decode_error hr hw (decode_unassigned hun), fun has => ?_⟩
  obtain ⟨hfield, hmask⟩ := decode_checks has
  refine ⟨fun hbad => step_of_decode_error hr hw (hfield hbad), fun hgood => ?_⟩
  obtain ⟨hset, hzero⟩ := hmask hgood
  exact ⟨fun hz => step_of_decode_error hr hw (hset hz), hzero⟩

end Sys2Proof.Proofs
end

section
/-! PROOFS. The operands and the lines of the assembler (spec/30_encoding.md R77 to R83): what each operand token names,
what a line of each shape makes of its tokens, and that it decodes. -/

namespace Sys2Proof.Machine

open Sys2Proof Sys2Proof.Claims

/-! ### Operand values (R78, R79, R81) -/

theorem immediateOf_ok {v : Int} {w : Word} :
    immediateOf v = .ok w ↔ (-(2 ^ 31) ≤ v ∧ v < 2 ^ 31) ∧ w = BitVec.ofInt 64 v := by
  unfold immediateOf
  split_ifs with h
  · simp only [Except.ok.injEq, h, and_self, true_and, eq_comm]
  · simp [h, -Int.reducePow]

theorem immediateOf_error {v : Int} (h : v < -(2 ^ 31) ∨ 2 ^ 31 ≤ v) : immediateOf v = .error .invalidOperand :=
  if_neg (by omega)

/-- A value of 32 bits is kept by the 64 bits of a word. -/
theorem toInt_ofInt_of_range {v : Int} (h : -(2 ^ 31) ≤ v ∧ v < 2 ^ 31) : (BitVec.ofInt 64 v).toInt = v :=
  BitVec.toInt_ofInt_eq_self (by decide) (by omega) (by omega)

theorem immediateOf_inRange {v : Int} {w : Word} (h : immediateOf v = .ok w) : immInRange w := by
  obtain ⟨hv, rfl⟩ := immediateOf_ok.1 h
  rw [immInRange, toInt_ofInt_of_range hv]
  exact hv

theorem readImmediate_inRange {t : List Char} {w : Word} (h : readImmediate t = .ok w) : immInRange w := by
  unfold readImmediate at h
  split at h
  · cases h
  · exact immediateOf_inRange h

theorem readOffset_inRange {labels : LabelTable} {here : Nat} {t : List Char} {w : Word}
    (h : readOffset labels here t = .ok w) : immInRange w := by
  unfold readOffset at h
  split_ifs at h
  · split at h
    · cases h
    · exact immediateOf_inRange h
  · exact readImmediate_inRange h

theorem addrInRange_ofNat {a : Nat} (h : a < 2 ^ 48) : addrInRange (BitVec.ofNat 64 a) := by
  rw [addrInRange, BitVec.toNat_ofNat]
  omega

theorem readAddress_inRange {labels : LabelTable} {t : List Char} {w : Word} {symbol : Option (List Char)}
    (h : readAddress labels t = .ok (w, symbol)) : addrInRange w := by
  unfold readAddress at h
  split_ifs at h
  · split at h
    · cases h
      decide
    · split_ifs at h with ha
      cases h
      exact addrInRange_ofNat ha
  · split at h
    · cases h
    · split_ifs at h with ha
      cases h
      exact addrInRange_ofNat ha

/-- A token that names no register is InvalidOperand (R78). -/
theorem readRegister_error {t : List Char} {e : AsmErrorKind} (h : readRegister t = .error e) :
    e = .invalidOperand := by
  unfold readRegister at h
  split at h
  · split at h
    · exact (Except.error.inj h).symm
    · split_ifs at h
      exact (Except.error.inj h).symm
  · exact (Except.error.inj h).symm

/-- A register place holds a register or an InvalidOperand. -/
theorem readRegister_cases (t : List Char) :
    (∃ r, readRegister t = .ok r) ∨ readRegister t = .error .invalidOperand := by
  cases h : readRegister t with
  | ok r => exact .inl ⟨r, rfl⟩
  | error e => exact .inr (by rw [readRegister_error h])

/-! ### The shape of each mnemonic (R80) -/

theorem templateOf_ok {m : List Char} {t : Template} (h : templateOf m = .ok t) : ∃ e ∈ mnemonics, e.2 = t := by
  unfold templateOf at h
  split at h
  · cases h
  · next e he => exact ⟨e, List.mem_of_find?_eq_some he, Except.ok.inj h⟩

/-- Whatever operands in range the shape is given, the instruction it makes has an encoding. -/
def Template.MakesWellFormed : Template → Prop
  | .rrr mk => ∀ a b c, (mk a b c).wellFormed = true
  | .rri mk => ∀ a b v, immInRange v → (mk a b v).wellFormed = true
  | .ri mk => ∀ a v, immInRange v → (mk a v).wellFormed = true
  | .ra mk => ∀ a v, addrInRange v → (mk a v).wellFormed = true
  | .a mk => ∀ v, addrInRange v → (mk v).wellFormed = true
  | .r mk => ∀ a, (mk a).wellFormed = true
  | .rro mk => ∀ a b v, immInRange v → (mk a b v).wellFormed = true
  | .none i => i.wellFormed = true

theorem mnemonics_makeWellFormed : ∀ e ∈ mnemonics, e.2.MakesWellFormed := by
  unfold mnemonics
  simp only [List.forall_mem_cons, Template.MakesWellFormed, Instr.wellFormed, decide_eq_true_eq]
  simp

/-! ### What each shape makes of its operands (R80) -/

section
variable {α β γ δ : Type} {x : Checked α} {y : Checked β} {z : Checked γ} {v : δ}

/-- A function of one, two or three operands has a value when each of them has one. -/
theorem applied_ok {f : α → δ} : applyChecked (.ok f) x = .ok v ↔ ∃ a, x = .ok a ∧ v = f a := by
  simp [applyChecked_ok]

theorem applied₂_ok {f : α → β → δ} :
    applyChecked (applyChecked (.ok f) x) y = .ok v ↔ ∃ a b, x = .ok a ∧ y = .ok b ∧ v = f a b := by
  simp only [applyChecked_ok (f := applyChecked _ _), applied_ok]
  grind

theorem applied₃_ok {f : α → β → γ → δ} :
    applyChecked (applyChecked (applyChecked (.ok f) x) y) z = .ok v ↔
      ∃ a b c, x = .ok a ∧ y = .ok b ∧ z = .ok c ∧ v = f a b c := by
  simp only [applyChecked_ok (x := z), applied₂_ok]
  grind

end

section
variable {labels : LabelTable} {here : Nat} {ops : List (List Char)} {out : Instr × Option (List Char)}

theorem Template.build_rrr_ok {mk : Reg → Reg → Reg → Instr} :
    (Template.rrr mk).build labels here ops = .ok out ↔ ops.length ≤ 3 ∧ ∃ a b c,
      operandAt readRegister ops 0 = .ok a ∧ operandAt readRegister ops 1 = .ok b ∧
      operandAt readRegister ops 2 = .ok c ∧ out = (mk a b c, Option.none) :=
  withArity_ok.trans (and_congr_right' applied₃_ok)

theorem Template.build_rri_ok {mk : Reg → Reg → Word → Instr} :
    (Template.rri mk).build labels here ops = .ok out ↔ ops.length ≤ 3 ∧ ∃ a b v,
      operandAt readRegister ops 0 = .ok a ∧ operandAt readRegister ops 1 = .ok b ∧
      operandAt readImmediate ops 2 = .ok v ∧ out = (mk a b v, Option.none) :=
  withArity_ok.trans (and_congr_right' applied₃_ok)

theorem Template.build_ri_ok {mk : Reg → Word → Instr} :
    (Template.ri mk).build labels here ops = .ok out ↔ ops.length ≤ 2 ∧ ∃ a v,
      operandAt readRegister ops 0 = .ok a ∧ operandAt readImmediate ops 1 = .ok v ∧ out = (mk a v, Option.none) :=
  withArity_ok.trans (and_congr_right' applied₂_ok)

theorem Template.build_ra_ok {mk : Reg → Word → Instr} :
    (Template.ra mk).build labels here ops = .ok out ↔ ops.length ≤ 2 ∧ ∃ a p,
      operandAt readRegister ops 0 = .ok a ∧ operandAt (readAddress labels) ops 1 = .ok p ∧ out = (mk a p.1, p.2) :=
  withArity_ok.trans (and_congr_right' applied₂_ok)

theorem Template.build_a_ok {mk : Word → Instr} :
    (Template.a mk).build labels here ops = .ok out ↔ ops.length ≤ 1 ∧ ∃ p,
      operandAt (readAddress labels) ops 0 = .ok p ∧ out = (mk p.1, p.2) :=
  withArity_ok.trans (and_congr_right' applied_ok)

theorem Template.build_r_ok {mk : Reg → Instr} :
    (Template.r mk).build labels here ops = .ok out ↔ ops.length ≤ 1 ∧ ∃ a,
      operandAt readRegister ops 0 = .ok a ∧ out = (mk a, Option.none) :=
  withArity_ok.trans (and_congr_right' applied_ok)

theorem Template.build_rro_ok {mk : Reg → Reg → Word → Instr} :
    (Template.rro mk).build labels here ops = .ok out ↔ ops.length ≤ 3 ∧ ∃ a b v,
      operandAt readRegister ops 0 = .ok a ∧ operandAt readRegister ops 1 = .ok b ∧
      operandAt (readOffset labels here) ops 2 = .ok v ∧ out = (mk a b v, Option.none) :=
  withArity_ok.trans (and_congr_right' applied₃_ok)

theorem Template.build_none_ok {i : Instr} :
    (Template.none i).build labels here ops = .ok out ↔ ops.length ≤ 0 ∧ out = (i, Option.none) :=
  withArity_ok.trans (and_congr_right' (by simp only [Except.ok.injEq, eq_comm]))

/-- A reader's values are in range, so the operand is. -/
theorem operandAt_inRange {α : Type} {read : List Char → Except AsmErrorKind α} {P : α → Prop}
    (hread : ∀ {t v}, read t = .ok v → P v) {k : Nat} {v : α} (h : operandAt read ops k = .ok v) : P v := by
  obtain ⟨t, -, ht⟩ := operandAt_ok.1 h
  exact hread ht

/-- An instruction that a shape builds has an encoding: its operands were read in range (R79). -/
theorem Template.build_wellFormed {t : Template} (ht : t.MakesWellFormed) (h : t.build labels here ops = .ok out) :
    out.1.wellFormed = true := by
  cases t with
  | rrr mk =>
    obtain ⟨-, a, b, c, -, -, -, rfl⟩ := build_rrr_ok.1 h
    exact ht a b c
  | rri mk =>
    obtain ⟨-, a, b, v, -, -, hv, rfl⟩ := build_rri_ok.1 h
    exact ht a b v (operandAt_inRange readImmediate_inRange hv)
  | ri mk =>
    obtain ⟨-, a, v, -, hv, rfl⟩ := build_ri_ok.1 h
    exact ht a v (operandAt_inRange readImmediate_inRange hv)
  | ra mk =>
    obtain ⟨-, a, p, -, hp, rfl⟩ := build_ra_ok.1 h
    exact ht a p.1 (operandAt_inRange readAddress_inRange hp)
  | a mk =>
    obtain ⟨-, p, hp, rfl⟩ := build_a_ok.1 h
    exact ht p.1 (operandAt_inRange readAddress_inRange hp)
  | r mk =>
    obtain ⟨-, a, -, rfl⟩ := build_r_ok.1 h
    exact ht a
  | rro mk =>
    obtain ⟨-, a, b, v, -, -, hv, rfl⟩ := build_rro_ok.1 h
    exact ht a b v (operandAt_inRange readOffset_inRange hv)
  | none i =>
    obtain ⟨-, rfl⟩ := build_none_ok.1 h
    exact ht

end

theorem assembleInstr_ok {labels : LabelTable} {here : Nat} {m : List Char} {ops : List (List Char)}
    {out : Instr × Option (List Char)} :
    assembleInstr labels here m ops = .ok out ↔ ∃ t, templateOf m = .ok t ∧ t.build labels here ops = .ok out := by
  unfold assembleInstr
  cases templateOf m <;> simp

/-! ### The line of each mnemonic (R80) -/

section
variable {labels : LabelTable} {here : Nat} {m : String} {x y z : List Char} {a b c : Reg} {v w : Word} {i : Instr}
  {symbol : Option (List Char)}

theorem lineMakes_rrr {mk : Reg → Reg → Reg → Instr} (hx : readRegister x = .ok a) (hy : readRegister y = .ok b)
    (hz : readRegister z = .ok c) (hw : encode (mk a b c) = w) (ht : templateOf m.toList = .ok (.rrr mk)) :
    LineMakes labels here m [x, y, z] (mk a b c) none w :=
  ⟨assembleInstr_ok.2 ⟨_, ht, Template.build_rrr_ok.2 ⟨le_rfl, a, b, c, operandAt_ok.2 ⟨x, rfl, hx⟩,
    operandAt_ok.2 ⟨y, rfl, hy⟩, operandAt_ok.2 ⟨z, rfl, hz⟩, rfl⟩⟩, hw⟩

theorem lineMakes_rri {mk : Reg → Reg → Word → Instr} (hx : readRegister x = .ok a) (hy : readRegister y = .ok b)
    (hz : readImmediate z = .ok v) (hw : encode (mk a b v) = w) (ht : templateOf m.toList = .ok (.rri mk)) :
    LineMakes labels here m [x, y, z] (mk a b v) none w :=
  ⟨assembleInstr_ok.2 ⟨_, ht, Template.build_rri_ok.2 ⟨le_rfl, a, b, v, operandAt_ok.2 ⟨x, rfl, hx⟩,
    operandAt_ok.2 ⟨y, rfl, hy⟩, operandAt_ok.2 ⟨z, rfl, hz⟩, rfl⟩⟩, hw⟩

theorem lineMakes_ri {mk : Reg → Word → Instr} (hx : readRegister x = .ok a) (hz : readImmediate z = .ok v)
    (hw : encode (mk a v) = w) (ht : templateOf m.toList = .ok (.ri mk)) :
    LineMakes labels here m [x, z] (mk a v) none w :=
  ⟨assembleInstr_ok.2 ⟨_, ht, Template.build_ri_ok.2 ⟨le_rfl, a, v, operandAt_ok.2 ⟨x, rfl, hx⟩,
    operandAt_ok.2 ⟨z, rfl, hz⟩, rfl⟩⟩, hw⟩

theorem lineMakes_ra {mk : Reg → Word → Instr} (hx : readRegister x = .ok a)
    (hz : readAddress labels z = .ok (v, symbol)) (hw : encode (mk a v) = w)
    (ht : templateOf m.toList = .ok (.ra mk)) : LineMakes labels here m [x, z] (mk a v) symbol w :=
  ⟨assembleInstr_ok.2 ⟨_, ht, Template.build_ra_ok.2 ⟨le_rfl, a, (v, symbol), operandAt_ok.2 ⟨x, rfl, hx⟩,
    operandAt_ok.2 ⟨z, rfl, hz⟩, rfl⟩⟩, hw⟩

theorem lineMakes_a {mk : Word → Instr} (hz : readAddress labels z = .ok (v, symbol)) (hw : encode (mk v) = w)
    (ht : templateOf m.toList = .ok (.a mk)) : LineMakes labels here m [z] (mk v) symbol w :=
  ⟨assembleInstr_ok.2 ⟨_, ht, Template.build_a_ok.2 ⟨le_rfl, (v, symbol), operandAt_ok.2 ⟨z, rfl, hz⟩, rfl⟩⟩, hw⟩

theorem lineMakes_r {mk : Reg → Instr} (hx : readRegister x = .ok a) (hw : encode (mk a) = w)
    (ht : templateOf m.toList = .ok (.r mk)) : LineMakes labels here m [x] (mk a) none w :=
  ⟨assembleInstr_ok.2 ⟨_, ht, Template.build_r_ok.2 ⟨le_rfl, a, operandAt_ok.2 ⟨x, rfl, hx⟩, rfl⟩⟩, hw⟩

theorem lineMakes_rro {mk : Reg → Reg → Word → Instr} (hx : readRegister x = .ok a) (hy : readRegister y = .ok b)
    (hz : readOffset labels here z = .ok v) (hw : encode (mk a b v) = w) (ht : templateOf m.toList = .ok (.rro mk)) :
    LineMakes labels here m [x, y, z] (mk a b v) none w :=
  ⟨assembleInstr_ok.2 ⟨_, ht, Template.build_rro_ok.2 ⟨le_rfl, a, b, v, operandAt_ok.2 ⟨x, rfl, hx⟩,
    operandAt_ok.2 ⟨y, rfl, hy⟩, operandAt_ok.2 ⟨z, rfl, hz⟩, rfl⟩⟩, hw⟩

theorem lineMakes_none (hw : encode i = w) (ht : templateOf m.toList = .ok (.none i)) :
    LineMakes labels here m [] i none w :=
  ⟨assembleInstr_ok.2 ⟨_, ht, Template.build_none_ok.2 ⟨le_rfl, rfl⟩⟩, hw⟩

end

/-! ### Decimal digits (R78, R79) -/

theorem digitChar_toNat : ∀ d : Fin 10, (Char.ofNat (48 + d.val)).toNat = 48 + d.val := by decide

theorem digitToken_all_isDigitChar (ds : List (Fin 10)) : (digitToken ds).all isDigitChar = true := by
  have hdigit : ∀ d : Fin 10, isDigitChar (Char.ofNat (48 + d.val)) = true := by decide
  simp [digitToken, hdigit]

/-- A token of digits reads as the number they write. -/
theorem readDecimal_digitToken {ds : List (Fin 10)} (h : ds ≠ []) :
    readDecimal (digitToken ds) = some (decimalValue ds) := by
  have hfold : (digitToken ds).foldl (fun n c => 10 * n + (c.toNat - 48)) 0 = decimalValue ds := by
    simp only [digitToken, List.foldl_map, digitChar_toNat, Nat.add_sub_cancel_left]
    simp only [decimalValue, Nat.ofDigits_eq_foldr, List.foldr_reverse, List.foldl_map, Nat.cast_id, Nat.add_comm]
  have hne : (digitToken ds).isEmpty = false := by simpa [digitToken] using h
  rw [readDecimal, hfold, hne, digitToken_all_isDigitChar]
  rfl

/-- A token of digits has no sign. -/
theorem readSigned_digitToken {ds : List (Fin 10)} (h : ds ≠ []) :
    readSigned (digitToken ds) = some (decimalValue ds : Int) := by
  have hsign : ∀ d : Fin 10, Char.ofNat (48 + d.val) ≠ '-' := by decide
  unfold readSigned
  split
  · next cs heq =>
    obtain ⟨d, ds, rfl⟩ := List.exists_cons_of_ne_nil h
    exact absurd (List.cons.inj heq).1 (hsign d)
  · rw [readDecimal_digitToken h]
    rfl

theorem readSigned_minus_digitToken {ds : List (Fin 10)} (h : ds ≠ []) :
    readSigned ('-' :: digitToken ds) = some (-(decimalValue ds : Int)) := by
  rw [readSigned, readDecimal_digitToken h]
  rfl

/-- A literal is no identifier: it starts with no letter. -/
theorem isIdentifier_digitToken (ds : List (Fin 10)) : isIdentifier (digitToken ds) = false := by
  have hstart : ∀ d : Fin 10, isIdentStart (Char.ofNat (48 + d.val)) = false := by decide
  cases ds with
  | nil => rfl
  | cons d ds => simp [digitToken, isIdentifier, hstart]

theorem isIdentifier_minus (cs : List Char) : isIdentifier ('-' :: cs) = false := by
  have hstart : isIdentStart '-' = false := by decide
  rw [isIdentifier, hstart, Bool.false_and]

theorem readImmediate_of_readSigned {t : List Char} {v : Int} (h : readSigned t = some v) :
    readImmediate t = immediateOf v := by
  simp only [readImmediate, h]

theorem immediateOf_toInt {v : Int} (h : -(2 ^ 31) ≤ v ∧ v < 2 ^ 31) : ∃ w, immediateOf v = .ok w ∧ w.toInt = v :=
  ⟨_, immediateOf_ok.2 ⟨h, rfl⟩, toInt_ofInt_of_range h⟩

theorem readOffset_of_not_identifier (labels : LabelTable) (here : Nat) {t : List Char} (h : isIdentifier t = false) :
    readOffset labels here t = readImmediate t := by
  simp [readOffset, h]

theorem readAddress_of_readDecimal (labels : LabelTable) {t : List Char} {n : Nat} (h : isIdentifier t = false)
    (hn : readDecimal t = some n) :
    readAddress labels t = if n < 2 ^ 48 then .ok (BitVec.ofNat 64 n, none) else .error .invalidOperand := by
  simp [readAddress, h, hn]

theorem readRegister_of_readDecimal {ds : List Char} {n : Nat} (hn : readDecimal ds = some n) :
    readRegister ('R' :: ds) = if h : n < 32 then .ok ⟨n, h⟩ else .error .invalidOperand := by
  simp only [readRegister, hn]

/-! ### Branches to a label (R81) -/

/-- The offset to a label, added to the address after the branch, is the label's address modulo 2^64. -/
theorem add_labelOffset (here a : Nat) :
    BitVec.ofNat 64 here + 8#64 + BitVec.ofInt 64 ((a : Int) - ((here : Int) + 8)) = BitVec.ofNat 64 a := by
  rw [← BitVec.ofInt_natCast, ← BitVec.ofInt_natCast, ← BitVec.ofInt_natCast, ← BitVec.ofInt_add, ← BitVec.ofInt_add]
  congr 1
  omega

theorem readOffset_label {labels : LabelTable} {here a : Nat} {name : List Char} {off : Word}
    (hid : isIdentifier name = true) (hfind : labels.find name = some a) (h : readOffset labels here name = .ok off) :
    off = BitVec.ofInt 64 ((a : Int) - ((here : Int) + 8)) := by
  simp only [readOffset, hid, hfind, if_true] at h
  exact (immediateOf_ok.1 h).2

theorem exec_beq_same (r : Reg) (off : Word) (s : State) :
    exec (.beq r r off) s = .next (s.setPc (s.pc + 8#64 + off)) :=
  congrArg Host.Outcome.next (if_pos rfl)

/-! ### The linker's patch (R84) -/

theorem bytesOfWord_getElem? (v : Word) {i : Nat} (h : i < 8) : (bytesOfWord v)[i]? = some (byteOfWord v i) := by
  match i, h with
  | 0, _ | 1, _ | 2, _ | 3, _ | 4, _ | 5, _ | 6, _ | 7, _ => rfl

theorem bytesOfWord_length (v : Word) : (bytesOfWord v).length = 8 := rfl

theorem byteOfWord_toNat (v : Word) (i : Nat) : (byteOfWord v i).toNat = byteAt v i :=
  toNat_extractLsb'_word v (8 * i) 8

section
variable {data : List Byte} {offset : Nat} (v : Word) (h : offset ≤ data.length)
include h

theorem patchData_getElem?_at {i : Nat} (hi : i < 8) :
    (patchData data offset v)[offset + i]? = some (byteOfWord v i) := by
  have htake : (data.take offset).length = offset := List.length_take_of_le h
  rw [patchData, List.append_assoc, List.getElem?_append_right (by omega), htake, Nat.add_sub_cancel_left,
    List.getElem?_append_left (by rwa [bytesOfWord_length]), bytesOfWord_getElem? v hi]

theorem patchData_getElem?_other {x : Nat} (hx : x < offset ∨ offset + 8 ≤ x) :
    (patchData data offset v)[x]? = data[x]? := by
  have htake : (data.take offset).length = offset := List.length_take_of_le h
  rw [patchData, List.append_assoc]
  obtain hlt | hge := hx
  · rw [List.getElem?_append_left (by omega), List.getElem?_take_of_lt hlt]
  · rw [List.getElem?_append_right (by omega), List.getElem?_append_right (by rw [bytesOfWord_length]; omega), htake,
      bytesOfWord_length, List.getElem?_drop]
    congr 1
    omega

end

end Sys2Proof.Machine

namespace Sys2Proof.Proofs

open Sys2Proof Sys2Proof.Machine Sys2Proof.Claims

/-! ### The lines of the assembler and the linker's patch -/

/-- Settles O48: the shape of a mnemonic builds only instructions with an encoding, and these decode (O1). -/
theorem assembledLinesDecode : Obligations.AssembledLinesDecode := by
  unfold Obligations.AssembledLinesDecode
  intro labels here m ops i symbol h
  obtain ⟨t, ht, hbuild⟩ := assembleInstr_ok.1 h
  obtain ⟨e, he, rfl⟩ := templateOf_ok ht
  have hwf : i.wellFormed = true := Template.build_wellFormed (mnemonics_makeWellFormed e he) hbuild
  exact ⟨hwf, decode_encode hwf⟩

/-- Settles O49: each mnemonic is looked up, its shape reads the tokens in order, and the word is that of O2. -/
theorem linesMakeTheirWords : Obligations.LinesMakeTheirWords := by
  unfold Obligations.LinesMakeTheirWords
  intro labels here x y z a b hx hy
  refine ⟨fun c hz => ?_, fun v hz => ?_, fun v symbol hz => ?_, fun v hz => ?_, ?_, ?_⟩
  · have line := fun m mk w => lineMakes_rrr (labels := labels) (here := here) (m := m) (mk := mk) (w := w) hx hy hz
    exact ⟨line _ _ _ (encodeR_eq_word ..) rfl, line _ _ _ (encodeR_eq_word ..) rfl,
      line _ _ _ (encodeR_eq_word ..) rfl, line _ _ _ (encodeR_eq_word ..) rfl, line _ _ _ (encodeR_eq_word ..) rfl,
      line _ _ _ (encodeR_eq_word ..) rfl, line _ _ _ (encodeR_eq_word ..) rfl, line _ _ _ (encodeR_eq_word ..) rfl,
      line _ _ _ (encodeR_eq_word ..) rfl, line _ _ _ (encodeR_eq_word ..) rfl, line _ _ _ (encodeR_eq_word ..) rfl⟩
  · have line := fun m mk w => lineMakes_rri (labels := labels) (here := here) (m := m) (mk := mk) (w := w) hx hy hz
    exact ⟨line _ _ _ (encodeI_eq_word ..) rfl, line _ _ _ (encodeI_eq_word ..) rfl,
      line _ _ _ (encodeI_eq_word ..) rfl, line _ _ _ (encodeI_eq_word ..) rfl, line _ _ _ (encodeI_eq_word ..) rfl,
      lineMakes_ri hx hz (encodeL_eq_word ..) rfl⟩
  · exact ⟨lineMakes_ra hx hz (encodeM_eq_wordA ..) rfl, lineMakes_ra hx hz (encodeM_eq_wordA ..) rfl,
      lineMakes_a hz (encodeJ_eq_wordA ..) rfl⟩
  · exact ⟨lineMakes_rro hx hy hz (encodeB_eq_word ..) rfl, lineMakes_rro hx hy hz (encodeB_eq_word ..) rfl⟩
  · exact lineMakes_r hx (encodeX_eq_word ..) rfl
  · exact lineMakes_none (encodeS_eq_word _) rfl

/-- Settles O50: a token of digits reads as the number they write, and each reader has its range. -/
theorem literalsAreDecimal : Obligations.LiteralsAreDecimal := by
  unfold Obligations.LiteralsAreDecimal
  intro ds hds
  have hdec := readDecimal_digitToken hds
  have hid := isIdentifier_digitToken ds
  have hreg := readRegister_of_readDecimal hdec
  have himm := readImmediate_of_readSigned (readSigned_digitToken hds)
  have hneg := readImmediate_of_readSigned (readSigned_minus_digitToken hds)
  have haddr := fun labels => readAddress_of_readDecimal labels hid hdec
  refine ⟨?_, fun hlt => ?_, fun hge => ?_, fun hle => ?_, fun hgt => ?_, fun labels here => ⟨?_, ?_⟩,
    fun hlt labels => ?_, fun hge labels => ?_⟩
  · by_cases h : decimalValue ds < 32
    · exact .inl ⟨⟨_, h⟩, rfl, hreg.trans (dif_pos h)⟩
    · exact .inr ⟨by omega, hreg.trans (dif_neg h)⟩
  · rw [himm]
    exact immediateOf_toInt (by omega)
  · rw [himm]
    exact immediateOf_error (by omega)
  · rw [hneg]
    exact immediateOf_toInt (by omega)
  · rw [hneg]
    exact immediateOf_error (by omega)
  · exact readOffset_of_not_identifier labels here hid
  · exact readOffset_of_not_identifier labels here (isIdentifier_minus _)
  · refine ⟨_, (haddr labels).trans (if_pos hlt), ?_⟩
    rw [BitVec.toNat_ofNat]
    omega
  · exact (haddr labels).trans (if_neg (by omega))

/-- Settles O54: the branch is taken, and the offset of the label undoes the advance and the branch's own address. -/
theorem branchReachesItsLabel : Obligations.BranchReachesItsLabel := by
  unfold Obligations.BranchReachesItsLabel
  intro labels here a name off r s hid hfind _ hoff hpc
  refine ⟨_, exec_beq_same r off s, ?_⟩
  rw [State.setPc_pc, hpc, readOffset_label hid hfind hoff, add_labelOffset]

/-- Settles O55: the high field is kept beside the new address, and a data section is cut around the eight bytes. -/
theorem patchSetsAddressField : Obligations.PatchSetsAddressField := by
  unfold Obligations.PatchSetsAddressField
  refine ⟨fun w resolved => ⟨fun hlt => ⟨_, if_pos hlt, ?_⟩, fun hge => if_neg (by omega)⟩,
    fun data offset resolved hfit => ⟨?_, fun i hi => ?_, fun x hx => ?_⟩⟩
  · rw [toNat_append_eq_add, toNat_extractLsb'_word, BitVec.toNat_ofNat]
    omega
  · simp only [patchData, List.length_append, List.length_take, List.length_drop, bytesOfWord_length]
    omega
  · exact ⟨_, patchData_getElem?_at resolved (by omega) hi, byteOfWord_toNat resolved i⟩
  · exact patchData_getElem?_other resolved (by omega) hx

end Sys2Proof.Proofs
end

section
/-! PROOFS. The errors of a source unit (spec/30_encoding.md R78, R82): each error of a line is in the report of the
unit, with the line, and what a bad register on a line makes. -/

namespace Sys2Proof.Machine

open Sys2Proof Sys2Proof.Claims

/-! ### The errors of a checked value (R82) -/

/-- The errors found on the way to a value; a value has none. -/
def errorsOf {α : Type} : Checked α → List AsmErrorKind
  | .ok _ => []
  | .error es => es

theorem eq_error_of_errorsOf {α : Type} {x : Checked α} {es : List AsmErrorKind} (h : errorsOf x = es) (hne : es ≠ []) :
    x = .error es := by
  cases x with
  | ok v => exact absurd h.symm hne
  | error es' => exact congrArg Except.error h

theorem mem_errorsOf {α : Type} {x : Checked α} {k : AsmErrorKind} (h : k ∈ errorsOf x) :
    ∃ es, x = .error es ∧ k ∈ es :=
  ⟨_, eq_error_of_errorsOf rfl (List.ne_nil_of_mem h), h⟩

@[simp] theorem errorsOf_applyChecked {α β : Type} (f : Checked (α → β)) (x : Checked α) :
    errorsOf (applyChecked f x) = errorsOf f ++ errorsOf x := by
  cases f <;> cases x <;> simp [applyChecked, errorsOf]

@[simp] theorem errorsOf_withArity {α : Type} (n : Nat) (ops : List (List Char)) (x : Checked α) :
    errorsOf (withArity n ops x) = errorsOf x ++ if ops.length ≤ n then [] else [.syntaxError] := by
  rw [withArity, errorsOf_applyChecked, errorsOf_applyChecked]
  split_ifs <;> rfl

/-- A token in a register place is one InvalidOperand when it names no register, and no error when it does (R78). -/
theorem errorsOf_registerAt {ops : List (List Char)} {k : Nat} {t : List Char} (h : ops[k]? = some t) :
    errorsOf (operandAt readRegister ops k) =
      List.replicate ([t].countP fun t => (readRegister t).toOption.isNone) .invalidOperand := by
  obtain ⟨r, hr⟩ | hr := readRegister_cases t
  · simp [operandAt, h, hr, errorsOf, Except.toOption]
  · simp [operandAt, h, hr, errorsOf, Except.toOption]

/-! ### Register places (R78, R80) -/

/-- How many of its first operands are registers, for each shape (R80). -/
def Template.registers : Template → Nat
  | .rrr _ => 3
  | .rri _ => 2
  | .rro _ => 2
  | .ri _ => 1
  | .ra _ => 1
  | .r _ => 1
  | .a _ => 0
  | .none _ => 0

/-- The errors of a register place are errors of the line. -/
theorem Template.registerAt_errors_subset {labels : LabelTable} {here : Nat} {t : Template} {ops : List (List Char)}
    {k : Nat} (hk : k < t.registers) :
    errorsOf (operandAt readRegister ops k) ⊆ errorsOf (t.build labels here ops) := by
  intro e he
  cases t with
  | rrr mk =>
    obtain rfl | rfl | rfl : k = 0 ∨ k = 1 ∨ k = 2 := by simp only [registers] at hk; omega
    all_goals simp [build, he]
  | rri mk | rro mk =>
    obtain rfl | rfl : k = 0 ∨ k = 1 := by simp only [registers] at hk; omega
    all_goals simp [build, he]
  | ri mk | ra mk | r mk =>
    obtain rfl : k = 0 := by simp only [registers] at hk; omega
    simp [build, he]
  | a mk | none i => exact absurd hk (Nat.not_lt_zero k)

/-- The register-register mnemonics have the shape of three registers. -/
theorem templateOf_registerRegister {m : String}
    (h : m ∈ ["ADD", "SUB", "MUL", "DIV", "AND", "OR", "XOR", "SLL", "SRL", "SRA", "CMP"]) :
    ∃ mk, templateOf m.toList = .ok (.rrr mk) := by
  simp only [List.mem_cons, List.not_mem_nil, or_false] at h
  obtain rfl | rfl | rfl | rfl | rfl | rfl | rfl | rfl | rfl | rfl | rfl := h
  all_goals exact ⟨_, rfl⟩

/-- A mnemonic that takes registers has a shape with as many register places. -/
theorem templateOf_registers {m : String} (h : 0 < registerPlaces m) :
    ∃ t, templateOf m.toList = .ok t ∧ t.registers = registerPlaces m := by
  unfold registerPlaces at h ⊢
  split_ifs at h ⊢ with h3 h2 h1
  · obtain ⟨mk, hmk⟩ := templateOf_registerRegister h3
    exact ⟨_, hmk, rfl⟩
  · simp only [List.mem_cons, List.not_mem_nil, or_false] at h2
    obtain rfl | rfl | rfl | rfl | rfl | rfl | rfl := h2
    all_goals exact ⟨_, rfl, rfl⟩
  · simp only [List.mem_cons, List.not_mem_nil, or_false] at h1
    obtain rfl | rfl | rfl | rfl := h1
    all_goals exact ⟨_, rfl, rfl⟩
  · exact absurd h (Nat.lt_irrefl 0)

/-- A line of three registers has one InvalidOperand for each token that names none, and no other error. -/
theorem Template.errorsOf_build_rrr (labels : LabelTable) (here : Nat) (mk : Reg → Reg → Reg → Instr)
    (x y z : List Char) :
    errorsOf ((Template.rrr mk).build labels here [x, y, z]) =
      List.replicate ([x, y, z].countP fun t => (readRegister t).toOption.isNone) .invalidOperand := by
  have hsplit : [x, y, z] = [x] ++ [y] ++ [z] := rfl
  rw [build, errorsOf_withArity, errorsOf_applyChecked, errorsOf_applyChecked, errorsOf_applyChecked,
    errorsOf_registerAt (t := x) rfl, errorsOf_registerAt (t := y) rfl, errorsOf_registerAt (t := z) rfl,
    if_pos (by simp), hsplit, List.countP_append, List.countP_append, List.replicate_add, List.replicate_add,
    List.append_nil]
  rfl

/-! ### The errors of one line (R82) -/

/-- An unrecognized character outside the comment is an error of the line's text. -/
theorem lexicalError_mem_readLine {cs : List Char}
    (h : (stripComment cs).any (fun c => !isSourceChar c) = true) : .lexicalError ∈ (readLine cs).errors := by
  obtain ⟨c, hc, hbad⟩ := List.any_eq_true.1 h
  exact List.mem_append_left _ (List.mem_map.2 ⟨c, List.mem_filter.2 ⟨hc, hbad⟩, rfl⟩)

theorem templateOf_unknown {m : List Char} (h : ∀ e ∈ mnemonics, e.1.toList ≠ m) :
    templateOf m = .error .unknownMnemonic := by
  have hnone : (mnemonics.find? fun e => e.1.toList == m) = none := by simpa using h
  simp only [templateOf, hnone]

theorem assembleInstr_unknown {labels : LabelTable} {here : Nat} {m : List Char} {ops : List (List Char)}
    (h : ∀ e ∈ mnemonics, e.1.toList ≠ m) : assembleInstr labels here m ops = .error [.unknownMnemonic] := by
  simp only [assembleInstr, templateOf_unknown h]

section
variable {labels : LabelTable} {here : Nat} {seen : List (List Char)} {l : SourceLine} {k : AsmErrorKind}

/-- What a line reports: the errors of its text, a label declared before, and the errors of its instruction. -/
theorem mem_emitLine :
    k ∈ (emitLine labels here seen l).1 ↔
      k ∈ l.errors ∨ ((∃ name ∈ seen, l.label = some name) ∧ k = .duplicateLabel) ∨
      ∃ m ops, l.instruction = some (m, ops) ∧ k ∈ errorsOf (assembleInstr labels here m ops) := by
  have hdup : k ∈ (if l.label.any seen.contains then [AsmErrorKind.duplicateLabel] else []) ↔
      (∃ name ∈ seen, l.label = some name) ∧ k = .duplicateLabel := by
    cases l.label <;> simp
  unfold emitLine
  cases hi : l.instruction with
  | none => simp [hdup]
  | some p =>
    obtain ⟨m, ops⟩ := p
    cases ha : assembleInstr labels here m ops with
    | error es => simp [ha, hdup, errorsOf]
    | ok out =>
      obtain ⟨i, symbol⟩ := out
      cases symbol <;> simp [ha, hdup, errorsOf]

end

/-! ### The errors of a unit -/

/-- The address of the line after the lines `ls`. -/
def addressFrom (here : Nat) (ls : List SourceLine) : Nat := ls.foldl addressAfter here

/-- The labels declared after the lines `ls`. -/
def seenFrom (seen : List (List Char)) (ls : List SourceLine) : List (List Char) := ls.foldl seenAfter seen

/-- Every error of a line is in the report of the lines, with the number of the line. -/
theorem mem_emitFrom {labels : LabelTable} {k : AsmErrorKind} (ls : List SourceLine) :
    ∀ (line here : Nat) (seen : List (List Char)) (n : Nat) (h : n < ls.length),
      k ∈ (emitLine labels (addressFrom here (ls.take n)) (seenFrom seen (ls.take n)) ls[n]).1 →
      { line := line + n, kind := k } ∈ (emitFrom labels line here seen ls).1 := by
  induction ls with
  | nil => intro line here seen n h; exact absurd h (Nat.not_lt_zero n)
  | cons l ls ih =>
    intro line here seen n h hk
    rw [emitFrom]
    cases n with
    | zero => exact List.mem_append_left _ (List.mem_map.2 ⟨k, hk, rfl⟩)
    | succ n =>
      have hmem := ih (line + 1) (addressAfter here l) (seenAfter seen l) n (Nat.lt_of_succ_lt_succ h) hk
      rw [Nat.add_right_comm] at hmem
      exact List.mem_append_right _ hmem

/-- The address that the assembler counts is that of the statement (R77). -/
theorem addressFrom_eq (ls : List SourceLine) :
    ∀ here, addressFrom here ls = here + 8 * ls.countP fun l => l.instruction.isSome := by
  induction ls with
  | nil => intro here; rfl
  | cons l ls ih =>
    intro here
    show addressFrom (addressAfter here l) ls = _
    rw [ih, List.countP_cons, addressAfter]
    split_ifs <;> omega

theorem mem_seenFrom {name : List Char} (ls : List SourceLine) :
    ∀ seen, name ∈ seenFrom seen ls ↔ name ∈ seen ∨ ∃ l ∈ ls, l.label = some name := by
  induction ls with
  | nil => intro seen; simp [seenFrom]
  | cons l ls ih =>
    intro seen
    show name ∈ seenFrom (seenAfter seen l) ls ↔ _
    rw [ih, seenAfter, List.mem_append, Option.mem_toList, List.exists_mem_cons_iff]
    tauto

theorem assemble_error {lines : List (List Char)} {e : AsmError}
    (h : e ∈ (emitFrom (labelsFrom 0 (lines.map readLine)) 1 0 [] (lines.map readLine)).1) :
    ∃ errs, assemble lines = .error errs ∧ e ∈ errs := by
  simp only [assemble]
  generalize emitFrom (labelsFrom 0 (lines.map readLine)) 1 0 [] (lines.map readLine) = out at h ⊢
  obtain ⟨errs, ws, rs⟩ := out
  cases errs with
  | nil => cases h
  | cons e' errs => exact ⟨_, rfl, h⟩

/-- What a line of a unit reports is reported for the unit, which has no output (R82). -/
theorem reported_of_mem_emitLine {lines : List (List Char)} {n : Nat} {k : AsmErrorKind} (h : n < lines.length)
    (hk : k ∈ (emitLine (labelsFrom 0 (lines.map readLine)) (addressOf lines n)
      (seenFrom [] ((lines.map readLine).take n)) (readLine lines[n])).1) : Reported lines n k := by
  have hlen : n < (lines.map readLine).length := by rwa [List.length_map]
  have haddr : addressFrom 0 ((lines.map readLine).take n) = addressOf lines n := by
    rw [addressFrom_eq, ← List.map_take, List.countP_map, Nat.zero_add]
    rfl
  have hmem := mem_emitFrom (lines.map readLine) 1 0 [] n hlen (by rwa [haddr, List.getElem_map])
  rw [Nat.add_comm] at hmem
  exact assemble_error hmem

/-- The errors of a line's instruction are reported (R82). -/
theorem reported_of_mem_assembleInstr {lines : List (List Char)} {n : Nat} {k : AsmErrorKind} {m : List Char}
    {ops : List (List Char)} (h : n < lines.length) (hi : (readLine lines[n]).instruction = some (m, ops))
    (hk : k ∈ errorsOf (assembleInstr (labelsFrom 0 (lines.map readLine)) (addressOf lines n) m ops)) :
    Reported lines n k :=
  reported_of_mem_emitLine h (mem_emitLine.2 (.inr (.inr ⟨m, ops, hi, hk⟩)))

end Sys2Proof.Machine

namespace Sys2Proof.Proofs

open Sys2Proof Sys2Proof.Machine Sys2Proof.Claims

/-! ### Assembly errors -/

/-- Settles O51: each kind of error is among those of its line, and every error of a line is reported. -/
theorem everyAssemblyErrorReported : Obligations.EveryAssemblyErrorReported := by
  unfold Obligations.EveryAssemblyErrorReported
  intro lines n h
  have htext : ∀ k ∈ (readLine lines[n]).errors, Reported lines n k :=
    fun k hk => reported_of_mem_emitLine h (mem_emitLine.2 (.inl hk))
  refine ⟨fun hbad => htext _ (lexicalError_mem_readLine hbad), htext, fun j hj name hfirst hagain => ?_,
    fun m ops hi => ⟨fun hunknown => ?_, fun es hes => ⟨?_, fun k hk => ?_⟩⟩⟩
  · have hmem : readLine (lines[j]'(hj.trans h)) ∈ (lines.map readLine).take n :=
      List.mem_take_iff_getElem.2 ⟨j, by rw [List.length_map]; omega, List.getElem_map ..⟩
    have hseen : name ∈ seenFrom [] ((lines.map readLine).take n) := (mem_seenFrom _ _).2 (.inr ⟨_, hmem, hfirst⟩)
    exact reported_of_mem_emitLine h (mem_emitLine.2 (.inr (.inl ⟨⟨name, hseen, hagain⟩, rfl⟩)))
  · refine reported_of_mem_assembleInstr h hi ?_
    rw [assembleInstr_unknown hunknown]
    exact List.mem_singleton_self _
  · rintro rfl
    exact assembleInstr_ne_nil _ _ _ _ hes
  · refine reported_of_mem_assembleInstr h hi ?_
    rwa [hes]

/-- Settles O52: the mnemonic's shape has the place among its registers, and its error is one of the line. -/
theorem everyBadRegisterReported : Obligations.EveryBadRegisterReported := by
  unfold Obligations.EveryBadRegisterReported
  intro lines n h m ops k t hi hk ht hbad
  obtain ⟨shape, hshape, hplaces⟩ := templateOf_registers (Nat.zero_lt_of_lt hk)
  have herr : readRegister t = .error .invalidOperand :=
    (readRegister_cases t).resolve_left fun ⟨r, hr⟩ => hbad r hr
  refine reported_of_mem_assembleInstr h hi ?_
  simp only [assembleInstr, hshape]
  refine Template.registerAt_errors_subset (hplaces ▸ hk) ?_
  simp [errorsOf_registerAt ht, herr, Except.toOption]

/-- Settles O53: the errors of a line of three registers are counted place by place. -/
theorem registerLineErrorsCounted : Obligations.RegisterLineErrorsCounted := by
  unfold Obligations.RegisterLineErrorsCounted
  intro labels here ops hlen m hm hbad
  obtain ⟨x, y, z, rfl⟩ := List.length_eq_three.1 hlen
  obtain ⟨mk, hmk⟩ := templateOf_registerRegister hm
  have hcount : [x, y, z].countP (fun t => (readRegister t).toOption.isNone) ≠ 0 := by
    rw [Ne, List.countP_eq_zero]
    obtain ⟨t, ht, hnone⟩ := List.any_eq_true.1 hbad
    exact fun hall => hall t ht hnone
  refine ⟨_, ?_, rfl⟩
  simp only [assembleInstr, hmk]
  exact eq_error_of_errorsOf (Template.errorsOf_build_rrr ..) (by simpa using hcount)

end Sys2Proof.Proofs
end

section
/-! PROOFS. The register-register instructions (spec/41_register_register.md R85 to R98): the number each operation
computes, the words that decode to them, and what `exec` answers for them. -/

namespace Sys2Proof.Machine

open Sys2Proof Sys2Proof.Claims

/-! ### The operations as arithmetic (R88 to R97) -/

section
variable (a b : Word)

theorem aluAdd_toNat : (aluAdd a b).toNat = (a.toNat + b.toNat) % 2 ^ 64 := BitVec.toNat_add a b

theorem aluSub_toNat : ((aluSub a b).toNat : Int) = ((a.toNat : Int) - (b.toNat : Int)) % 2 ^ 64 := by
  have ha := a.isLt
  have hb := b.isLt
  rw [aluSub, BitVec.toNat_sub]
  omega

theorem aluMul_toNat : (aluMul a b).toNat = a.toNat * b.toNat % 2 ^ 64 := BitVec.toNat_mul a b

/-- The low 6 bits of the register are its remainder modulo 64. -/
theorem shiftAmount_eq_mod : shiftAmount b = b.toNat % 64 := by
  rw [shiftAmount, BitVec.extractLsb'_toNat, Nat.shiftRight_zero]

theorem aluSll_toNat : (aluSll a b).toNat = a.toNat * 2 ^ (b.toNat % 64) % 2 ^ 64 := by
  rw [aluSll, BitVec.toNat_shiftLeft, Nat.shiftLeft_eq, shiftAmount_eq_mod]

theorem aluSrl_toNat : (aluSrl a b).toNat = a.toNat / 2 ^ (b.toNat % 64) := by
  rw [aluSrl, BitVec.toNat_ushiftRight, Nat.shiftRight_eq_div_pow, shiftAmount_eq_mod]

/-- An arithmetic shift to the right rounds toward minus infinity, as the division of integers by a power of 2 does. -/
theorem aluSra_toInt : (aluSra a b).toInt = a.toInt / 2 ^ (b.toNat % 64) := by
  rw [aluSra, BitVec.toInt_sshiftRight, Int.shiftRight_eq_div_pow, shiftAmount_eq_mod, Int.natCast_pow, Nat.cast_ofNat]

variable {a b}

theorem aluDiv_of_overflow (h : a.toInt = -(2 ^ 63) ∧ b.toInt = -1) : aluDiv a b = 0x8000000000000000#64 := if_pos h

/-- Every quotient but -2^63 / -1 is a 64-bit number, so the word of it has its value. -/
theorem aluDiv_toInt (h : ¬ (a.toInt = -(2 ^ 63) ∧ b.toInt = -1)) : (aluDiv a b).toInt = a.toInt.tdiv b.toInt := by
  have hne : a ≠ BitVec.intMin 64 ∨ b ≠ -1#64 := by
    by_contra hboth
    push Not at hboth
    obtain ⟨rfl, rfl⟩ := hboth
    exact h (by decide)
  calc (aluDiv a b).toInt = (BitVec.ofInt 64 (a.toInt.tdiv b.toInt)).toInt := by rw [aluDiv, if_neg h]
    _ = (a.sdiv b).toInt := by rw [BitVec.toInt_ofInt, BitVec.toInt_sdiv]
    _ = a.toInt.tdiv b.toInt := BitVec.toInt_sdiv_of_ne_or_ne a b hne

end

/-! ### What an instruction that writes a register answers (R85, R99) -/

/-- The word an instruction is encoded to decodes to the instruction. -/
theorem decode_of_encode_eq {i : Instr} {w : Word} (hw : encode i = w) (hi : i.wellFormed = true) : decode w = .ok i :=
  hw ▸ decode_encode hi

theorem State.retire_sameStreams (s : State) (rd : Reg) (v : Word) : SameStreams s (s.retire rd v) := ⟨rfl, rfl⟩

/-- An instruction that retires with `v` writes `v` to `rd` and leaves the rest, so what holds of `v` holds of the value
written. -/
theorem writes_of_exec_retire {i : Instr} {s : State} {rd : Reg} {v : Word} {P : Word → Prop}
    (h : exec i s = .next (s.retire rd v)) (hv : P v) :
    ∃ t v, exec i s = .next t ∧ Writes s t rd v ∧ SameStreams s t ∧ P v :=
  ⟨_, v, h, s.retire_writes rd v, s.retire_sameStreams rd v, hv⟩

/-! ### DIV and CMP (R91, R98) -/

section
variable {rs1 rs2 : Reg} {s : State} (rd : Reg)

theorem exec_div_zero (h : s.reg rs2 = 0#64) : exec (.div rd rs1 rs2) s = .next (s.raise .divisionByZero) := if_pos h

theorem exec_div_nonzero (h : s.reg rs2 ≠ 0#64) :
    exec (.div rd rs1 rs2) s = .next (s.retire rd (aluDiv (s.reg rs1) (s.reg rs2))) := if_neg h

theorem exec_cmp (rs1 rs2 : Reg) (s : State) :
    exec (.cmp rd rs1 rs2) s =
      .next (s.setZN (cmpZ (s.reg rs1) (s.reg rs2)) (cmpN (s.reg rs1) (s.reg rs2))).advance := rfl

theorem cmpZ_iff {a b : Word} : cmpZ a b = true ↔ a = b := decide_eq_true_iff

theorem cmpN_iff {a b : Word} : cmpN a b = true ↔ a.toInt < b.toInt := decide_eq_true_iff

end

end Sys2Proof.Machine

namespace Sys2Proof.Proofs

open Sys2Proof Sys2Proof.Machine Sys2Proof.Claims

/-! ### Register-register instructions -/

/-- Settles O13: by the divisor, and for one that is not 0 by whether the quotient overflows. -/
theorem divTruncatesOrFaults : Obligations.DivTruncatesOrFaults := by
  unfold Obligations.DivTruncatesOrFaults
  refine fun rd rs1 rs2 s => ⟨decode_of_encode_eq (encodeR_eq_word ..) rfl, fun w hfetch hzero => ?_, fun hdivisor => ?_⟩
  · exact ⟨_, exec_div_zero rd hzero, State.raise_halts .divisionByZero hfetch⟩
  · exact writes_of_exec_retire (exec_div_nonzero rd hdivisor) ⟨aluDiv_of_overflow, aluDiv_toInt⟩

/-- Settles O15: each shift is arithmetic with the remainder of the amount. -/
theorem shiftsUseLowSixBits : Obligations.ShiftsUseLowSixBits := by
  unfold Obligations.ShiftsUseLowSixBits
  refine fun rd rs1 rs2 s => ⟨⟨?sllWord, ?sll⟩, ⟨?srlWord, ?srl⟩, ?sraWord, ?sra⟩
  case sllWord | srlWord | sraWord => exact decode_of_encode_eq (encodeR_eq_word ..) rfl
  case sll => exact writes_of_exec_retire rfl (aluSll_toNat ..)
  case srl => exact writes_of_exec_retire rfl (aluSrl_toNat ..)
  case sra => exact writes_of_exec_retire rfl (aluSra_toInt ..)

/-- Settles O12: each result is that of the numbers, modulo 2^64. -/
theorem addSubMulWrapModulo : Obligations.AddSubMulWrapModulo := by
  unfold Obligations.AddSubMulWrapModulo
  refine fun rd rs1 rs2 s => ⟨⟨?addWord, ?add⟩, ⟨?subWord, ?sub⟩, ?mulWord, ?mul⟩
  case addWord | subWord | mulWord => exact decode_of_encode_eq (encodeR_eq_word ..) rfl
  case add => exact writes_of_exec_retire rfl (aluAdd_toNat ..)
  case sub => exact writes_of_exec_retire rfl (aluSub_toNat ..)
  case mul => exact writes_of_exec_retire rfl (aluMul_toNat ..)

/-- Settles O14: bit `i` of the result is that of bit `i` of the two registers. -/
theorem andOrXorAreBitwise : Obligations.AndOrXorAreBitwise := by
  unfold Obligations.AndOrXorAreBitwise
  refine fun rd rs1 rs2 s => ⟨⟨?andWord, ?and⟩, ⟨?orWord, ?or⟩, ?xorWord, ?xor⟩
  case andWord | orWord | xorWord => exact decode_of_encode_eq (encodeR_eq_word ..) rfl
  case and => exact writes_of_exec_retire rfl fun _ _ => BitVec.getLsbD_and
  case or => exact writes_of_exec_retire rfl fun _ _ => BitVec.getLsbD_or
  case xor => exact writes_of_exec_retire rfl fun _ _ => BitVec.getLsbD_xor

/-- Settles O16: the two flags are CMP's comparisons, and the only other field it writes is `pc`. -/
theorem cmpSetsZeroAndNegative : Obligations.CmpSetsZeroAndNegative := by
  unfold Obligations.CmpSetsZeroAndNegative
  refine fun rd rs1 rs2 s => ⟨decode_of_encode_eq (encodeR_eq_word ..) rfl, _, exec_cmp rd rs1 rs2 s, ?_⟩
  exact ⟨cmpZ_iff, cmpN_iff, rfl, rfl, rfl, fun _ => rfl, ⟨rfl, rfl, rfl, rfl, rfl, rfl⟩, ⟨fun _ => rfl, rfl⟩, rfl, rfl⟩

end Sys2Proof.Proofs
end

section
/-! PROOFS. The register-immediate instructions (spec/42_register_immediate.md R99 to R105): the immediate that a 32-bit
field holds, the words that decode to them, and what `exec` answers for them. -/

namespace Sys2Proof.Machine

open Sys2Proof Sys2Proof.Claims

/-! ### The immediate of a field (R68, R99) -/

section
variable (op : BitVec 8) (r a : Reg) (f : BitVec 32)

/-- The signed value of a 32-bit field, which sign extension keeps, is in the range of an immediate. -/
theorem immInRange_signExtend : immInRange (f.signExtend 64) := by
  rw [immInRange, BitVec.toInt_signExtend_of_le (by decide)]
  exact ⟨f.le_toInt, f.toInt_lt⟩

/-- The words of formats I and L hold the field itself. -/
theorem encodeI_signExtend : encodeI op r a (f.signExtend 64) = word op.toNat r a 0 f.toNat := by
  rw [encodeI_eq_word, signExtend_toNat_mod]

theorem encodeL_signExtend : encodeL op r (f.signExtend 64) = word op.toNat r 0 0 f.toNat := by
  rw [encodeL_eq_word, signExtend_toNat_mod]

end

/-- The word of an instruction whose operand is the immediate of a field decodes to the instruction. -/
theorem decode_of_encode_signExtend {i : Instr} {w : Word} {f : BitVec 32} (hw : encode i = w)
    (hi : i.wellFormed = decide (immInRange (f.signExtend 64))) : decode w = .ok i :=
  decode_of_encode_eq hw (hi.trans (decide_eq_true (immInRange_signExtend f)))

end Sys2Proof.Machine

namespace Sys2Proof.Proofs

open Sys2Proof Sys2Proof.Machine Sys2Proof.Claims

/-! ### Register-immediate instructions -/

/-- Settles O17: each result is that of the register's number and the immediate's, modulo 2^64. -/
theorem addiSubiWrapModulo : Obligations.AddiSubiWrapModulo := by
  unfold Obligations.AddiSubiWrapModulo
  refine fun rd rs1 s => ⟨fun f => ⟨?addiWord, ?subiWord⟩, fun imm => ⟨?addi, ?subi⟩⟩
  case addiWord | subiWord => exact decode_of_encode_signExtend (encodeI_signExtend ..) rfl
  case addi => exact writes_of_exec_retire rfl (aluAdd_toNat ..)
  case subi => exact writes_of_exec_retire rfl (aluSub_toNat ..)

/-- Settles O18: bit `i` of the result is that of bit `i` of the register and of the immediate. -/
theorem andiOriXoriAreBitwise : Obligations.AndiOriXoriAreBitwise := by
  unfold Obligations.AndiOriXoriAreBitwise
  refine fun rd rs1 s => ⟨fun f => ⟨?andiWord, ?oriWord, ?xoriWord⟩, fun imm => ⟨?andi, ?ori, ?xori⟩⟩
  case andiWord | oriWord | xoriWord => exact decode_of_encode_signExtend (encodeI_signExtend ..) rfl
  case andi => exact writes_of_exec_retire rfl fun _ _ => BitVec.getLsbD_and
  case ori => exact writes_of_exec_retire rfl fun _ _ => BitVec.getLsbD_or
  case xori => exact writes_of_exec_retire rfl fun _ _ => BitVec.getLsbD_xor

/-- Settles O19: the immediate is the sign extension of the field, and LI retires with it. -/
theorem liLoadsSignedImmediate : Obligations.LiLoadsSignedImmediate := by
  unfold Obligations.LiLoadsSignedImmediate
  refine fun rd f s => ⟨f.signExtend 64, BitVec.toInt_signExtend_of_le (by decide), ?liWord, ?li⟩
  case liWord => exact decode_of_encode_signExtend (encodeL_signExtend ..) rfl
  case li => exact ⟨_, rfl, s.retire_writes rd _, s.retire_sameStreams rd _⟩

end Sys2Proof.Proofs
end

section
/-! PROOFS. LOAD and STORE (spec/43_load_store.md R106 to R108): the words that decode to them, the faults of a data
access, and the bytes that a STORE leaves in memory. -/

namespace Sys2Proof.Machine

open Sys2Proof Sys2Proof.Claims

/-! ### The address of a field (R69, R106) -/

/-- Zero extension of a 48-bit field gives an address an encoding can hold. -/
theorem addrInRange_zeroExtend (f : BitVec 48) : addrInRange (f.zeroExtend 64) := by
  rw [addrInRange, BitVec.zeroExtend_eq_setWidth, BitVec.toNat_setWidth_of_le (by decide)]
  exact f.isLt

/-- The word of format M holds the field itself. -/
theorem encodeM_zeroExtend (op : BitVec 8) (r : Reg) (f : BitVec 48) :
    encodeM op r (f.zeroExtend 64) = wordA op.toNat r f.toNat := by
  rw [encodeM_eq_wordA, zeroExtend_toNat_mod]

/-- The word of an instruction whose operand is the address of a field decodes to the instruction. -/
theorem decode_of_encode_zeroExtend {i : Instr} {w : Word} {f : BitVec 48} (hw : encode i = w)
    (hi : i.wellFormed = decide (addrInRange (f.zeroExtend 64))) : decode w = .ok i :=
  decode_of_encode_eq hw (hi.trans (decide_eq_true (addrInRange_zeroExtend f)))

/-! ### A data access that fails, and a STORE that does not (R41, R42, R48) -/

section
variable {s : State} {a w : Word} {e : AccessError}

theorem exec_load_halts (rd : Reg) (hi : a ≠ s.config.inAddr) (ha : s.accessError a = some e)
    (h : s.fetch s.pc = .ok w) :
    ∃ t, exec (.load rd a) s = .next t ∧ Halts s t 3#3 (memorySubCause .load e) w a (s.pc + 8#64) :=
  ⟨_, exec_load_fault rd hi ha, State.raise_halts (.memoryFault .load e a) h⟩

theorem exec_store_halts (rs : Reg) (ho : a ≠ s.config.outAddr) (ha : s.accessError a = some e)
    (h : s.fetch s.pc = .ok w) :
    ∃ t, exec (.store rs a) s = .next t ∧ Halts s t 3#3 (memorySubCause .store e) w a (s.pc + 8#64) :=
  ⟨_, exec_store_fault rs ho ha, State.raise_halts (.memoryFault .store e a) h⟩

theorem exec_store_output (rs : Reg) (s : State) :
    exec (.store rs s.config.outAddr) s = .next (s.emit (s.reg rs)).advance := by
  have hwrite : s.memWrite (effectiveAddress s.config.outAddr) (s.reg rs) = .ok (s.emit (s.reg rs)) := by
    rw [State.memWrite, effectiveAddress, if_pos rfl]
  show execStore rs s.config.outAddr s = _
  simp only [execStore, hwrite]

end

end Sys2Proof.Machine

namespace Sys2Proof.Proofs

open Sys2Proof Sys2Proof.Machine Sys2Proof.Claims

/-! ### Load and store -/

/-- Settles O20: by the address, which is the input device's, or fails one of the two checks, or is that of a word of
memory. -/
theorem loadReadsWordOrInput : Obligations.LoadReadsWordOrInput := by
  unfold Obligations.LoadReadsWordOrInput
  refine fun rd a s => ⟨fun f => ?loadWord, ?input, fun hne w hfetch hmis => ?misaligned,
    fun hne w hfetch haligned hout => ?outOfRange, fun hne haligned hin => ?memory⟩
  case loadWord => exact decode_of_encode_zeroExtend (encodeM_zeroExtend ..) rfl
  case input =>
    rintro rfl v vs hinput
    exact ⟨_, exec_load_input rd hinput, (s.setInput vs).retire_writes rd v, rfl, rfl⟩
  case misaligned => exact exec_load_halts rd hne (State.accessError_eq_misaligned.2 hmis) hfetch
  case outOfRange => exact exec_load_halts rd hne (State.accessError_eq_outOfRange.2 ⟨haligned, hout⟩) hfetch
  case memory =>
    exact writes_of_exec_retire (exec_load_memory rd hne (State.accessError_eq_none.2 ⟨haligned, hin⟩))
      fun i hi => s.byteAt_readWord a.toNat hi

/-- Settles O23: by the address, which is the output device's, or fails one of the two checks, or is that of a word of
memory; in canonical memory the eight bytes of a word written are read back, and the others are as before. -/
theorem storeWritesWordOrOutput : Obligations.StoreWritesWordOrOutput := by
  unfold Obligations.StoreWritesWordOrOutput
  refine fun rs a s => ⟨fun f => ?storeWord, ?output, fun hne w hfetch hmis => ?misaligned,
    fun hne w hfetch haligned hout => ?outOfRange, fun hne haligned hin hwf => ?memory⟩
  case storeWord => exact decode_of_encode_zeroExtend (encodeM_zeroExtend ..) rfl
  case output =>
    rintro rfl
    exact ⟨_, exec_store_output rs s, rfl, rfl, rfl, fun _ => rfl, ⟨rfl, rfl, rfl, rfl⟩,
      ⟨rfl, rfl, rfl, rfl, rfl, rfl⟩, fun _ => rfl, rfl⟩
  case misaligned => exact exec_store_halts rs hne (State.accessError_eq_misaligned.2 hmis) hfetch
  case outOfRange => exact exec_store_halts rs hne (State.accessError_eq_outOfRange.2 ⟨haligned, hout⟩) hfetch
  case memory =>
    have hwritten : ∀ i < 8, ((s.mem.writeWord a.toNat (s.reg rs)).read (a.toNat + i)).toNat = byteAt (s.reg rs) i :=
      fun i hi => by rw [Memory.read_writeWord_at a.toNat i _ hi hwf, byteOfWord_toNat]
    exact ⟨_, exec_store_memory rs hne (State.accessError_eq_none.2 ⟨haligned, hin⟩), hwritten,
      fun x hx => Memory.read_writeWord_other s.mem _ hx, rfl, rfl, fun _ => rfl, ⟨rfl, rfl, rfl, rfl⟩,
      ⟨rfl, rfl, rfl, rfl, rfl, rfl⟩, rfl, rfl⟩

end Sys2Proof.Proofs
end

section
/-! PROOFS. Control flow (spec/44_control_flow.md R109 to R113): the words that decode to a transfer, the targets of a
branch as numbers, and what `exec` answers for each transfer. -/

namespace Sys2Proof.Machine

open Sys2Proof Sys2Proof.Claims

/-! ### The operands of the words of formats J and B (R63, R65) -/

theorem encodeJ_zeroExtend (op : BitVec 8) (f : BitVec 48) :
    encodeJ op (f.zeroExtend 64) = wordA op.toNat 0 f.toNat := by
  rw [encodeJ_eq_wordA, zeroExtend_toNat_mod]

theorem encodeB_signExtend (op : BitVec 8) (a b : Reg) (f : BitVec 32) :
    encodeB op a b (f.signExtend 64) = word op.toNat 0 a b f.toNat := by
  rw [encodeB_eq_word, signExtend_toNat_mod]

/-! ### A transfer of control changes `pc` alone (R109) -/

theorem State.setPc_jumps (s : State) (target : Word) : Jumps s (s.setPc target) target :=
  ⟨rfl, fun _ => rfl, ⟨rfl, rfl, rfl, rfl⟩, ⟨rfl, rfl, rfl, rfl, rfl, rfl⟩, ⟨fun _ => rfl, rfl⟩, rfl, rfl⟩

theorem exec_jmp (a : Word) (s : State) : exec (.jmp a) s = .next (s.setPc a) := rfl

theorem exec_jr (rs1 : Reg) (s : State) : exec (.jr rs1) s = .next (s.setPc (s.reg rs1)) := rfl

/-! ### Branches (R112, R113) -/

section
variable (rs1 rs2 : Reg) (off : Word) (s : State)

theorem State.nextPc_toNat : (s.nextPc.toNat : Int) = ((s.pc.toNat : Int) + 8) % 2 ^ 64 := by
  rw [State.nextPc, BitVec.toNat_add, BitVec.toNat_ofNat]
  omega

/-- A negative offset counts as its number modulo 2^64, which the sum is taken by. -/
theorem State.branchTarget_toNat :
    ((s.branchTarget off).toNat : Int) = ((s.pc.toNat : Int) + 8 + off.toInt) % 2 ^ 64 := by
  have hnext := s.nextPc_toNat
  rw [State.branchTarget, BitVec.toNat_add, BitVec.toInt_eq_toNat_cond]
  split_ifs <;> omega

/-- Falling through is the transfer to the address after the branch. -/
theorem exec_beq :
    exec (.beq rs1 rs2 off) s =
      .next (s.setPc (if s.reg rs1 = s.reg rs2 then s.branchTarget off else s.nextPc)) :=
  congrArg Host.Outcome.next (apply_ite s.setPc ..).symm

theorem exec_bne :
    exec (.bne rs1 rs2 off) s =
      .next (s.setPc (if s.reg rs1 = s.reg rs2 then s.nextPc else s.branchTarget off)) :=
  congrArg Host.Outcome.next ((ite_not ..).trans (apply_ite s.setPc ..).symm)

end

end Sys2Proof.Machine

namespace Sys2Proof.Proofs

open Sys2Proof Sys2Proof.Machine Sys2Proof.Claims

/-! ### Control flow -/

/-- Settles O28: the registers choose between the branch's target and the address after it. -/
theorem branchesCompareRegisters : Obligations.BranchesCompareRegisters := by
  unfold Obligations.BranchesCompareRegisters
  refine fun rs1 rs2 s => ⟨fun f => ⟨?beqWord, ?bneWord⟩, fun off =>
    ⟨⟨_, _, exec_beq rs1 rs2 off s, s.setPc_jumps _, ?beqTarget⟩,
      ⟨_, _, exec_bne rs1 rs2 off s, s.setPc_jumps _, ?bneTarget⟩⟩⟩
  case beqWord | bneWord => exact decode_of_encode_signExtend (encodeB_signExtend ..) rfl
  case beqTarget =>
    split_ifs
    · exact s.branchTarget_toNat off
    · exact s.nextPc_toNat
  case bneTarget =>
    split_ifs
    · exact s.nextPc_toNat
    · exact s.branchTarget_toNat off

/-- Settles O29: JR stays Running at the target, where the fetch fails (O7). -/
theorem badTargetFaultsAtNextFetch : Obligations.BadTargetFaultsAtNextFetch := by
  unfold Obligations.BadTargetFaultsAtNextFetch
  intro rs1 s hr hruns hbad
  have hjump : step s = .next (s.setPc (s.reg rs1)) := (step_of_runs hr hruns).trans (exec_jr rs1 s)
  obtain ⟨hmisaligned, houtOfRange⟩ := failedFetchHalts (s.setPc (s.reg rs1)) hr
  have hfault : ∃ u, step (s.setPc (s.reg rs1)) = .next u ∧
      Halts (s.setPc (s.reg rs1)) u 3#3 (if (s.reg rs1).toNat % 8 ≠ 0 then 2#3 else 1#3) 0#64
        (s.reg rs1) (s.reg rs1) := by
    split_ifs with hmis
    · exact hmisaligned hmis
    · exact houtOfRange (not_not.1 hmis) (hbad.resolve_left hmis)
  obtain ⟨u, hstep, hrunning, hcause, hsub, hpc, hword, haddr, hpc', -⟩ := hfault
  exact ⟨_, u, hjump, hr, rfl, hstep, hrunning, hcause, hpc, haddr, hword, hpc', hsub⟩

/-- Settles O27: the words decode, and each jump is the update of `pc`. -/
theorem jumpsSetPc : Obligations.JumpsSetPc := by
  unfold Obligations.JumpsSetPc
  refine fun rs1 s => ⟨fun f => ?jmpWord, fun a => ?jmp, ?jrWord, ?jr⟩
  case jmpWord => exact decode_of_encode_zeroExtend (encodeJ_zeroExtend ..) rfl
  case jmp => exact ⟨_, exec_jmp a s, s.setPc_jumps a⟩
  case jrWord => exact decode_of_encode_eq (encodeX_eq_word ..) rfl
  case jr => exact ⟨_, exec_jr rs1 s, s.setPc_jumps _⟩

end Sys2Proof.Proofs
end

section
/-! PROOFS. HALT (spec/45_system.md R115): its one word, and the record it leaves. -/

namespace Sys2Proof.Machine

open Sys2Proof Sys2Proof.Claims

/-- The record of R115 holds the word at the fetch PC. -/
theorem exec_halt_halts (s : State) :
    ∃ t, exec .halt s = .next t ∧ Halts s t 1#3 0#3 s.instrWord 0#64 (s.pc + 8#64) :=
  ⟨s.halt, rfl, s.haltWith_halts ..⟩

end Sys2Proof.Machine

namespace Sys2Proof.Proofs

open Sys2Proof Sys2Proof.Machine Sys2Proof.Claims

/-! ### HALT -/

/-- Settles O30: HALT is the instruction of one word, and it records the word at the fetch PC, which is the fetched
one. -/
theorem haltStopsTheCore : Obligations.HaltStopsTheCore := by
  unfold Obligations.HaltStopsTheCore
  refine ⟨?haltWord, fun w hd => ?onlyWord, fun s => ?halts⟩
  case haltWord => exact decode_encode (i := .halt) rfl
  case onlyWord => exact eq_haltWord_of_decode hd
  case halts =>
    obtain ⟨t, hexec, hhalts⟩ := exec_halt_halts s
    exact ⟨t, s.instrWord, hexec, hhalts, fun w' hfetch => State.instrWord_of_fetch hfetch⟩

end Sys2Proof.Proofs
end

section
/-! PROOFS. Exceptions (spec/60_exceptions.md R117 to R121): the faults a step can take, each with its reason, and that
a halting step takes one of them or runs HALT. -/

namespace Sys2Proof.Machine

open Sys2Proof Sys2Proof.Claims

/-! ### The reason for a fault (R117, R121) -/

/-- The step at `s` has reason to take the fault, with the word it fetched, if any. -/
inductive Raises (s : State) : CoreFault → Option Word → Prop
  /-- The fetch PC fails a check (R40). -/
  | fetch (e : AccessError) (h : s.accessError s.pc = some e) : Raises s (.memoryFault .fetch e s.pc) none
  /-- The word fetched is no instruction (R72 to R74). -/
  | decode (w : Word) (e : DecodeError) (hw : s.fetch s.pc = .ok w) (hd : decode w = .error e) :
      Raises s (faultOfDecodeError e) (some w)
  /-- DIV with a zero divisor (R91). -/
  | divide (w : Word) (rd rs1 rs2 : Reg) (hw : s.fetch s.pc = .ok w) (hruns : Runs s (.div rd rs1 rs2))
      (h : s.reg rs2 = 0#64) : Raises s .divisionByZero (some w)
  /-- The address of a LOAD is not the input device's and fails a check (R41). -/
  | load (w : Word) (rd : Reg) (a : Word) (e : AccessError) (hw : s.fetch s.pc = .ok w) (hruns : Runs s (.load rd a))
      (hne : a ≠ s.config.inAddr) (h : s.accessError a = some e) : Raises s (.memoryFault .load e a) (some w)
  /-- The address of a STORE is not the output device's and fails a check (R42). -/
  | store (w : Word) (rs : Reg) (a : Word) (e : AccessError) (hw : s.fetch s.pc = .ok w) (hruns : Runs s (.store rs a))
      (hne : a ≠ s.config.outAddr) (h : s.accessError a = some e) : Raises s (.memoryFault .store e a) (some w)

/-- Of the effects of an instruction, HALT's and the three faults of R121 (6) halt the core. -/
theorem Effect.halt_or_raises {i : Instr} {s t : State} {w : Word} (h : Effect i s t) (hr : s.running = true)
    (hw : s.fetch s.pc = .ok w) (hd : decode w = .ok i) (ht : t.running = false) :
    (Runs s .halt ∧ t = s.halt) ∨ ∃ f o, Raises s f o ∧ t = s.takeFault f o := by
  have hruns : Runs s i := ⟨w, hw, hd⟩
  obtain rfl : s.instrWord = w := State.instrWord_of_fetch hw
  cases h with
  | halts hi => exact .inl ⟨hi ▸ hruns, rfl⟩
  | divides rd rs1 rs2 hi hzero => exact .inr ⟨_, _, .divide _ rd rs1 rs2 hw (hi ▸ hruns) hzero, rfl⟩
  | loadFaults rd a e hi hne ha => exact .inr ⟨_, _, .load _ rd a e hw (hi ▸ hruns) hne ha, rfl⟩
  | storeFaults rs a e hi hne ha => exact .inr ⟨_, _, .store _ rs a e hw (hi ▸ hruns) hne ha, rfl⟩
  | _ => exact absurd (hr.symm.trans ht) (by decide)

/-- A step that halts the core ran HALT, or took a fault it had reason to take. -/
theorem step_halt_or_raises {s t : State} (h : step s = .next t) (ht : t.running = false) :
    (Runs s .halt ∧ t = s.halt) ∨ ∃ f o, Raises s f o ∧ t = s.takeFault f o := by
  obtain ⟨hr, ⟨f, hf, rfl⟩ | ⟨w, e, hw, hd, rfl⟩ | ⟨w, i, hw, hd, hx⟩⟩ := step_next h
  · obtain ⟨e, he, rfl⟩ := State.fetch_error.1 hf
    exact .inr ⟨_, _, .fetch e he, rfl⟩
  · exact .inr ⟨_, _, .decode w e hw hd, rfl⟩
  · exact (exec_effect hx).halt_or_raises hr hw hd ht

/-! ### What a fault records (R27, R119) -/

/-- The sub-cause of a failed access tells which check its address fails. -/
theorem State.memorySubCause_cases {s : State} {a : Word} {e : AccessError} (kind : AccessKind)
    (h : s.accessError a = some e) :
    (a.toNat % 8 ≠ 0 ∧ memorySubCause kind e = memorySubCause kind .misaligned) ∨
    (a.toNat % 8 = 0 ∧ s.config.memBytes < a.toNat + 8 ∧
      memorySubCause kind e = memorySubCause kind .outOfRange) := by
  cases e with
  | misaligned => exact .inl ⟨State.accessError_eq_misaligned.1 h, rfl⟩
  | outOfRange =>
    obtain ⟨haligned, hout⟩ := State.accessError_eq_outOfRange.1 h
    exact .inr ⟨haligned, hout, rfl⟩

/-- The word goes with the fault exactly when the fetch gave one. -/
theorem Raises.fetched {s : State} {f : CoreFault} {o : Option Word} (h : Raises s f o) :
    (∃ w, s.fetch s.pc = .ok w ∧ o = some w) ∨ (∃ g, s.fetch s.pc = .error g ∧ o = none) := by
  cases h with
  | fetch e he => exact .inr ⟨_, State.fetch_error.2 ⟨e, he, rfl⟩, rfl⟩
  | decode w _ hw _ | divide w _ _ _ hw _ _ | load w _ _ _ hw _ _ _ | store w _ _ _ hw _ _ _ =>
    exact .inl ⟨w, hw, rfl⟩

/-- The record of a halting step holds the word fetched, with `pc` advanced, or 0 with `pc` as it was. -/
theorem step_halts_precisely {s t : State} (h : step s = .next t) (ht : t.running = false) :
    ∃ c u w a p, Halts s t c u w a p ∧
      ((s.fetch s.pc = .ok w ∧ p = s.pc + 8#64) ∨ (∃ f, s.fetch s.pc = .error f ∧ w = 0#64 ∧ p = s.pc)) := by
  obtain ⟨⟨w, hw, -⟩, rfl⟩ | ⟨f, o, hraises, rfl⟩ := step_halt_or_raises h ht
  · obtain rfl : s.instrWord = w := State.instrWord_of_fetch hw
    exact ⟨_, _, _, _, _, s.haltWith_halts .., .inl ⟨hw, rfl⟩⟩
  · obtain ⟨w, hw, rfl⟩ | ⟨g, hg, rfl⟩ := hraises.fetched
    · exact ⟨_, _, _, _, _, s.haltWith_halts .., .inl ⟨hw, rfl⟩⟩
    · exact ⟨_, _, _, _, _, s.haltWith_halts .., .inr ⟨g, hg, rfl, rfl⟩⟩

end Sys2Proof.Machine

namespace Sys2Proof.Proofs

open Sys2Proof Sys2Proof.Machine Sys2Proof.Claims

/-! ### Exceptions -/

/-- Settles O10: by the reason of the halting step, HALT or one of the five kinds of fault. -/
theorem haltCausesTellTheReason : Obligations.HaltCausesTellTheReason := by
  unfold Obligations.HaltCausesTellTheReason
  intro s t h ht
  obtain ⟨hhalt, rfl⟩ | ⟨f, o, hraises, rfl⟩ := step_halt_or_raises h ht
  · exact .inl ⟨rfl, rfl, rfl, hhalt⟩
  refine .inr ?_
  cases hraises with
  | divide w rd rs1 rs2 hw hruns hzero => exact .inl ⟨rfl, rfl, rfl, rd, rs1, rs2, hruns, hzero⟩
  | fetch e he => exact .inr (.inl ⟨rfl, rfl, State.memorySubCause_cases .fetch he⟩)
  | load w rd a e hw hruns hne he =>
    exact .inr (.inr (.inl ⟨rfl, rd, a, hruns, hne, rfl, State.memorySubCause_cases .load he⟩))
  | store w rs a e hw hruns hne he =>
    exact .inr (.inr (.inr (.inl ⟨rfl, rs, a, hruns, hne, rfl, State.memorySubCause_cases .store he⟩)))
  | decode w e hw hd =>
    refine .inr (.inr (.inr (.inr ?_)))
    cases e with
    | unknownOpcode => exact ⟨rfl, w, hw, .inl ⟨rfl, rfl, hd⟩⟩
    | registerField => exact ⟨rfl, w, hw, .inr (.inl ⟨rfl, rfl, hd⟩)⟩
    | mustBeZero => exact ⟨rfl, w, hw, .inr (.inr ⟨rfl, rfl, hd⟩)⟩

/-- Settles O11: the parts of the record, and the frame, of a halting step. -/
theorem haltingStepIsPrecise : Obligations.HaltingStepIsPrecise := by
  unfold Obligations.HaltingStepIsPrecise
  intro s t h ht
  obtain ⟨c, u, w, a, p, ⟨-, -, -, hfaultPc, hword, -, hpc, hregs, hflags, hmem, hstreams⟩, hfetched⟩ :=
    step_halts_precisely h ht
  refine ⟨hfaultPc, hregs, hflags, hmem, hstreams, ?_⟩
  obtain ⟨hw, rfl⟩ | ⟨f, hf, rfl, rfl⟩ := hfetched
  · exact .inl ⟨w, hw, hword, hpc⟩
  · exact .inr ⟨f, hf, hword, hpc⟩

end Sys2Proof.Proofs
end

section
/-! PROOFS. Reset and the executable image (spec/70_reset_and_hazards.md R129 to R134): the fields of a packed header,
which image files the loader accepts, the memory it leaves, and the state at the start of a run. -/

namespace Sys2Proof.Machine

open Sys2Proof Sys2Proof.Claims

/-! ### The fields of the header (R132) -/

@[simp] theorem leBytes_length (k n : Nat) : (leBytes k n).length = k := by simp [leBytes]

theorem leBytes_succ (k n : Nat) : leBytes (k + 1) n = BitVec.ofNat 8 n :: leBytes k (n / 256) := by
  simp [leBytes, List.range_succ_eq_map, Function.comp_def, Nat.pow_succ', Nat.div_div_eq_div_mul]

/-- Reading back the little-endian bytes of a number gives the number, as far as the bytes hold it. -/
theorem leNat_leBytes (k : Nat) : ∀ n, leNat (leBytes k n) = n % 256 ^ k := by
  induction k with
  | zero => exact fun n => (Nat.mod_one n).symm
  | succ k ih =>
    intro n
    rw [leBytes_succ, leNat, ih, Nat.pow_succ', Nat.mod_mul, BitVec.toNat_ofNat]

/-- The field at the front of a file. -/
theorem headerField_leBytes (k n : Nat) (rest : List Byte) : headerField (leBytes k n ++ rest) 0 k = n % 256 ^ k := by
  rw [headerField, List.drop_zero, List.take_left' (leBytes_length k n), leNat_leBytes]

/-- A field that stands after the bytes `front` of a file. -/
theorem headerField_append {front : List Byte} {off : Nat} (h : front.length ≤ off) (rest : List Byte) (len : Nat) :
    headerField (front ++ rest) off len = headerField rest (off - front.length) len := by
  rw [headerField, headerField, List.drop_append, List.drop_of_length_le h, List.nil_append]

section
variable (magic version codeSize dataSize entry : Nat) (body : List Byte)

theorem imageFile_magic :
    headerField (imageFile magic version codeSize dataSize entry body) 0 4 = magic % 2 ^ 32 := by
  simp [imageFile, headerField_leBytes]

theorem imageFile_version :
    headerField (imageFile magic version codeSize dataSize entry body) 4 2 = version % 2 ^ 16 := by
  simp [imageFile, headerField_append, headerField_leBytes]

theorem imageFile_codeSize :
    headerField (imageFile magic version codeSize dataSize entry body) 6 8 = codeSize % 2 ^ 64 := by
  simp [imageFile, headerField_append, headerField_leBytes]

theorem imageFile_dataSize :
    headerField (imageFile magic version codeSize dataSize entry body) 14 8 = dataSize % 2 ^ 64 := by
  simp [imageFile, headerField_append, headerField_leBytes]

theorem imageFile_entry :
    headerField (imageFile magic version codeSize dataSize entry body) 22 8 = entry % 2 ^ 64 := by
  simp [imageFile, headerField_append, headerField_leBytes]

theorem imageFile_length :
    (imageFile magic version codeSize dataSize entry body).length = headerBytes + body.length := by
  simp only [imageFile, List.length_append, leBytes_length, headerBytes]

theorem imageFile_drop (n : Nat) :
    (imageFile magic version codeSize dataSize entry body).drop (headerBytes + n) = body.drop n := by
  rw [← List.drop_drop]
  exact congrArg (List.drop n) (List.drop_left' (by simp [headerBytes]))

end

/-! ### The image files the loader accepts (R132) -/

theorem parseImage_of_short {file : List Byte} (magic : BitVec 32) (version : BitVec 16) (memBytes : Nat)
    (h : file.length < headerBytes) : parseImage magic version memBytes file = none :=
  if_pos h

section
variable {magic magic' : BitVec 32} {version version' : BitVec 16} {codeSize dataSize entry : Word} {memBytes : Nat}
  {body : List Byte}

/-- A file with a whole header is accepted exactly when magic and version are right, the sizes fit memory, and the body
holds as many bytes. -/
theorem parseImage_imageFile :
    parseImage magic version memBytes
        (imageFile magic'.toNat version'.toNat codeSize.toNat dataSize.toNat entry.toNat body) =
      if magic' = magic ∧ version' = version ∧ codeSize.toNat + dataSize.toNat ≤ memBytes ∧
          codeSize.toNat + dataSize.toNat ≤ body.length then
        some
          { entryPoint := entry
            code := body.take codeSize.toNat
            data := (body.drop codeSize.toNat).take dataSize.toNat }
      else none := by
  have hcode : (imageFile magic'.toNat version'.toNat codeSize.toNat dataSize.toNat entry.toNat body).drop headerBytes =
      body := imageFile_drop _ _ _ _ _ body 0
  simp only [parseImage, imageFile_magic, imageFile_version, imageFile_codeSize, imageFile_dataSize, imageFile_entry,
    imageFile_length, imageFile_drop, hcode, Nat.mod_eq_of_lt (BitVec.isLt _), BitVec.ofNat_toNat, BitVec.setWidth_eq,
    ne_eq, BitVec.toNat_inj]
  -- The refusals are the negations of the conditions, one test after another.
  simp only [← Nat.not_le, ite_not, ite_and, Nat.add_assoc, Nat.add_le_add_iff_left, Nat.le_add_right, if_true]

end

theorem hostAct_loadImage_eq (file : List Byte) (s : State) :
    hostAct (.loadImage file) s =
      (parseImage Config.imageMagic Config.imageVersion s.config.memBytes file).map s.boot :=
  Option.ext fun t => by simp only [hostAct_loadImage, Option.map_eq_some_iff, eq_comm (a := t)]

/-! ### The start of a run (R131, R134) -/

/-- Memory after the load holds the code and then the data, and reads as 0 beyond them. -/
theorem Image.read_memory (img : Image) (x : Nat) : img.memory.read x = (img.code ++ img.data)[x]?.getD 0#8 := by
  by_cases hx : x < (img.code ++ img.data).length
  · have hread := Memory.read_writeBytes_at (img.code ++ img.data) 0 x hx Memory.wf_nil
    rw [Nat.zero_add] at hread
    rw [Image.memory, hread, List.getElem?_eq_getElem hx, Option.getD_some]
  · rw [Image.memory, Memory.read_writeBytes_other _ _ _ (.inr (by omega)), List.getElem?_eq_none (by omega)]
    rfl

theorem State.boot_readByte (s : State) (img : Image) (x : Nat) :
    (s.boot img).readByte x = (img.code ++ img.data)[x]?.getD 0#8 := img.read_memory x

theorem State.boot_resetTo (s : State) (img : Image) : ResetTo s (s.boot img) img.entryPoint :=
  (assertReset_resetTo s img.entryPoint).setMem img.memory

end Sys2Proof.Machine

namespace Sys2Proof.Proofs

open Sys2Proof Sys2Proof.Machine Sys2Proof.Claims

/-! ### Reset and the executable image -/

/-- Settles O41: the start of a run is a reset at the entry point, and its first fetch fails as any fetch does (O7). -/
theorem entryPointCheckedAtFirstFetch : Obligations.EntryPointCheckedAtFirstFetch := by
  unfold Obligations.EntryPointCheckedAtFirstFetch
  intro s img
  obtain ⟨hmisaligned, houtOfRange⟩ := failedFetchHalts (s.boot img) (s.boot_resetTo img).running
  exact ⟨s.boot_resetTo img, hmisaligned, houtOfRange⟩

/-- Settles O42: the three ranges of memory are the three ranges of indices into code and data put together. -/
theorem imagePlacedInMemory : Obligations.ImagePlacedInMemory := by
  unfold Obligations.ImagePlacedInMemory
  refine fun s img => ⟨fun i hi => ?code, fun i hi => ?data, fun x hx => ?zeros, fun _ _ => rfl⟩
  case code => simp [State.boot_readByte, List.getElem?_append_left hi, hi]
  case data => simp [State.boot_readByte, hi]
  case zeros => rw [State.boot_readByte, List.getElem?_eq_none (by simpa using hx), Option.getD_none]

/-- Settles O44: the loader takes code and data from the front of the body. -/
theorem longerImageFileAccepted : Obligations.LongerImageFileAccepted := by
  unfold Obligations.LongerImageFileAccepted
  intro magic version codeSize dataSize entry memBytes body rest hfits hlength
  have hbody : codeSize.toNat + dataSize.toNat ≤ (body ++ rest).length := by
    rw [List.length_append, hlength]
    omega
  have hcode : codeSize.toNat ≤ body.length := by omega
  have hdata : (body.drop codeSize.toNat).length = dataSize.toNat := by
    rw [List.length_drop, hlength, Nat.add_sub_cancel_left]
  rw [parseImage_imageFile, if_pos ⟨rfl, rfl, hfits, hbody⟩, List.take_append_of_le_length hcode,
    List.drop_append_of_le_length hcode, List.take_left' hdata]

/-- Settles O43: each refusal denies one of the conditions of acceptance, and a file of the exact length is one with
nothing after the data (O44). -/
theorem imageHeaderParsedOrRefused : Obligations.ImageHeaderParsedOrRefused := by
  unfold Obligations.ImageHeaderParsedOrRefused
  refine fun magic magic' version version' codeSize dataSize entry memBytes body file s =>
    ⟨hostAct_loadImage_eq file s, fun hmagic => ?badMagic, fun hversion => ?badVersion, fun hlarge => ?tooLarge,
      fun hbody => ?shortBody, parseImage_of_short magic version memBytes, fun hfits hlength => ?accepted⟩
  case badMagic => exact parseImage_imageFile.trans (if_neg fun ⟨h, _⟩ => hmagic h)
  case badVersion => exact parseImage_imageFile.trans (if_neg fun ⟨_, h, _⟩ => hversion h)
  case tooLarge => exact parseImage_imageFile.trans (if_neg fun ⟨_, _, h, _⟩ => Nat.not_le.2 hlarge h)
  case shortBody => exact parseImage_imageFile.trans (if_neg fun ⟨_, _, _, h⟩ => Nat.not_le.2 hbody h)
  case accepted =>
    have haccepted := longerImageFileAccepted magic version codeSize dataSize entry memBytes body [] hfits hlength
    rwa [List.append_nil] at haccepted

/-- Settles O37: the reset state is what reset makes of it, with legal parameters and no byte of memory listed. -/
theorem resetMeetsInvariant : Obligations.ResetMeetsInvariant := by
  unfold Obligations.ResetMeetsInvariant
  have hreset : ResetTo State.reset State.reset 0#64 := assertReset_resetTo State.reset 0#64
  have hlegal : State.reset.config.Legal := by decide
  exact hreset.inv hlegal ⟨rfl, rfl⟩

/-- Settles O40: the action always has a move, and it is the reset. -/
theorem resetSetsEveryField : Obligations.ResetSetsEveryField := by
  unfold Obligations.ResetSetsEveryField
  exact fun s p => ⟨s.assertReset p, rfl, assertReset_resetTo s p, rfl⟩

end Sys2Proof.Proofs
end
